-- ==== Sys2Proof/Word.lean ====
section
/-! DEFINITION. The widths of the machine's values (spec 00_scope.md R4, R5). Every value is unsigned. -/

namespace Sys2Proof

/-- An 8-bit value: a byte of memory, a V register, a timer (R4). -/
abbrev Byte := BitVec 8

/-- A 16-bit value: an instruction word, I, PC, a return address (R4). -/
abbrev Word := BitVec 16

/-- A 32-bit display storage word (R19). -/
abbrev DispWord := BitVec 32

/-- A register number: the 4-bit field itself, so every value names a register that exists (R10, R52). -/
abbrev Reg := BitVec 4

/-- The 4-bit count of DRW (R52). -/
abbrev Nibble := BitVec 4

/-- The 12-bit address field (R52). -/
abbrev Addr12 := BitVec 12

end Sys2Proof
end

