-- ==== Sys2Proof/Config.lean ====
section
/-! DEFINITION. The fixed sizes of the machine (spec 00_scope.md R4) and the free values: the inputs of a step.
The parameters a test could show wrong (FONT_TABLE, MEM_RESET_FILL, FONT_DIGIT_POLICY) stand in Machine/Memory.lean and
Machine/Operands.lean, RESET_DIRTY in State.reset. -/

namespace Sys2Proof.Config

/-- MEM_SIZE (R4): the addresses are 0x000 to 0xFFF. -/
abbrev memSize : Nat := 0x1000

/-- NUM_V (R4). -/
abbrev numV : Nat := 16

/-- STACK_DEPTH (R4). -/
abbrev stackDepth : Nat := 16

/-- NUM_KEYS (R4). -/
abbrev numKeys : Nat := 16

/-- DISP_W (R4). -/
abbrev dispW : Nat := 64

/-- DISP_H (R4). -/
abbrev dispH : Nat := 32

/-- NUM_WORDS, the display's storage words (R4). -/
abbrev numWords : Nat := 64

/-- The keypad snapshot the host gives with step number `n`, where State.inputs fixes none: any of the 2^16
snapshots (R140). FREE VALUE (DESIGN CHOICE, log entry 2; safe): nothing constrains it. -/
opaque freeKeys : Nat → Vector Bool 16

/-- The random byte the host gives with step number `n`, where State.inputs fixes none: any value 0 to 254,
with no law between draws (R110, D29). FREE VALUE (DESIGN CHOICE, log entries 2 and 3). -/
opaque freeRnd : Nat → Fin 255

end Sys2Proof.Config
end

