-- ==== Sys2Proof/Syntax.lean ====
section
/-! DEFINITION. The 34 instruction forms, in the order of spec/30_encoding.md R54 and spec/opcode_table.json, with the
operand fields of R51 and R52 at their own widths. -/

namespace Sys2Proof

/-- One constructor per row of R54. -/
inductive Instr where
  /-- 00E0 `CLS` (R126). -/
  | cls
  /-- 00EE `RET` (R80). -/
  | ret
  /-- 1nnn `JP addr` (R81). -/
  | jp (addr : Addr12)
  /-- 2nnn `CALL addr` (R82). -/
  | call (addr : Addr12)
  /-- 3xkk `SE Vx, kk` (R83). -/
  | seImm (x : Reg) (kk : Byte)
  /-- 4xkk `SNE Vx, kk` (R84). -/
  | sneImm (x : Reg) (kk : Byte)
  /-- 5xy0 `SE Vx, Vy` (R85). -/
  | seReg (x y : Reg)
  /-- 6xkk `LD Vx, kk` (R90). -/
  | ldImm (x : Reg) (kk : Byte)
  /-- 7xkk `ADD Vx, kk` (R91). -/
  | addImm (x : Reg) (kk : Byte)
  /-- 8xy0 `LD Vx, Vy` (R92). -/
  | ldReg (x y : Reg)
  /-- 8xy1 `OR Vx, Vy` (R100). -/
  | orReg (x y : Reg)
  /-- 8xy2 `AND Vx, Vy` (R101). -/
  | andReg (x y : Reg)
  /-- 8xy3 `XOR Vx, Vy` (R102). -/
  | xorReg (x y : Reg)
  /-- 8xy4 `ADD Vx, Vy` (R93). -/
  | addReg (x y : Reg)
  /-- 8xy5 `SUB Vx, Vy` (R94). -/
  | subReg (x y : Reg)
  /-- 8xy6 `SHR Vx`; y is carried and ignored (R103, R57). -/
  | shr (x y : Reg)
  /-- 8xy7 `SUBN Vx, Vy` (R95). -/
  | subnReg (x y : Reg)
  /-- 8xyE `SHL Vx`; y is carried and ignored (R104, R57). -/
  | shl (x y : Reg)
  /-- 9xy0 `SNE Vx, Vy` (R86). -/
  | sneReg (x y : Reg)
  /-- Annn `LD I, addr` (R150). -/
  | ldI (addr : Addr12)
  /-- Bnnn `JP V0, addr` (R87). -/
  | jpV0 (addr : Addr12)
  /-- Cxkk `RND Vx, kk` (R111). -/
  | rnd (x : Reg) (kk : Byte)
  /-- Dxyn `DRW Vx, Vy, n` (R127). -/
  | drw (x y : Reg) (n : Nibble)
  /-- Ex9E `SKP Vx` (R141). -/
  | skp (x : Reg)
  /-- ExA1 `SKNP Vx` (R142). -/
  | sknp (x : Reg)
  /-- Fx07 `LD Vx, DT` (R151). -/
  | ldVxDt (x : Reg)
  /-- Fx0A `LD Vx, K` (R143). -/
  | ldVxK (x : Reg)
  /-- Fx15 `LD DT, Vx` (R152). -/
  | ldDtVx (x : Reg)
  /-- Fx18 `LD ST, Vx` (R153). -/
  | ldStVx (x : Reg)
  /-- Fx1E `ADD I, Vx` (R154). -/
  | addI (x : Reg)
  /-- Fx29 `LD F, Vx` (R155). -/
  | ldF (x : Reg)
  /-- Fx33 `LD B, Vx` (R156). -/
  | ldB (x : Reg)
  /-- Fx55 `LD [I], Vx` (R157). -/
  | ldMemVx (x : Reg)
  /-- Fx65 `LD Vx, [I]` (R158). -/
  | ldVxMem (x : Reg)
  deriving DecidableEq, Repr

end Sys2Proof
end

