-- ==== Sys2Proof/WellFormed.lean ====
section
/-! DEFINITION. Well-formedness of an instruction term (spec/30_encoding.md R52, R58) and of an instruction word (the mask and
match table of R54, kept apart from the decoder of Decode.lean, which follows the dispatch of R53). -/

namespace Sys2Proof

/-- Every register operand names one of the NUM_V registers and every address operand lies in the 4096-byte space. The operand
types already have the widths of R52, so every term passes (R58: values of operand fields are never illegal). -/
def Instr.wellFormed : Instr → Bool
  | .cls | .ret => true
  | .jp addr | .call addr | .ldI addr | .jpV0 addr => decide (addr.toNat < Config.memSize)
  | .seImm x _ | .sneImm x _ | .ldImm x _ | .addImm x _ | .rnd x _ => decide (x.toNat < Config.numV)
  | .seReg x y | .sneReg x y | .ldReg x y | .orReg x y | .andReg x y | .xorReg x y | .addReg x y | .subReg x y
  | .shr x y | .subnReg x y | .shl x y | .drw x y _ => decide (x.toNat < Config.numV) && decide (y.toNat < Config.numV)
  | .skp x | .sknp x | .ldVxDt x | .ldVxK x | .ldDtVx x | .ldStVx x | .addI x | .ldF x | .ldB x
  | .ldMemVx x | .ldVxMem x => decide (x.toNat < Config.numV)

/-- One row of R54: a word `w` is this instruction exactly when `w &&& mask = pattern`. -/
structure OpcodeRow where
  mask : Word
  pattern : Word
  deriving DecidableEq, Repr

/-- The rows of R54 whose mask fixes the whole word or the high nibble (formats Z, A, XK, XYN). -/
def opcodeRowsWide : List OpcodeRow :=
  [⟨0xFFFF, 0x00E0⟩, ⟨0xFFFF, 0x00EE⟩, ⟨0xF000, 0x1000⟩, ⟨0xF000, 0x2000⟩, ⟨0xF000, 0x3000⟩, ⟨0xF000, 0x4000⟩,
   ⟨0xF000, 0x6000⟩, ⟨0xF000, 0x7000⟩, ⟨0xF000, 0xA000⟩, ⟨0xF000, 0xB000⟩, ⟨0xF000, 0xC000⟩, ⟨0xF000, 0xD000⟩]

/-- The rows of R54 whose mask fixes the high and the low nibble (format XY). -/
def opcodeRowsXY : List OpcodeRow :=
  [⟨0xF00F, 0x5000⟩, ⟨0xF00F, 0x8000⟩, ⟨0xF00F, 0x8001⟩, ⟨0xF00F, 0x8002⟩, ⟨0xF00F, 0x8003⟩, ⟨0xF00F, 0x8004⟩,
   ⟨0xF00F, 0x8005⟩, ⟨0xF00F, 0x8006⟩, ⟨0xF00F, 0x8007⟩, ⟨0xF00F, 0x800E⟩, ⟨0xF00F, 0x9000⟩]

/-- The rows of R54 whose mask fixes the high nibble and the low byte (format X). -/
def opcodeRowsX : List OpcodeRow :=
  [⟨0xF0FF, 0xE09E⟩, ⟨0xF0FF, 0xE0A1⟩, ⟨0xF0FF, 0xF007⟩, ⟨0xF0FF, 0xF00A⟩, ⟨0xF0FF, 0xF015⟩, ⟨0xF0FF, 0xF018⟩,
   ⟨0xF0FF, 0xF01E⟩, ⟨0xF0FF, 0xF029⟩, ⟨0xF0FF, 0xF033⟩, ⟨0xF0FF, 0xF055⟩, ⟨0xF0FF, 0xF065⟩]

/-- The 34 rows of R54. -/
def opcodeRows : List OpcodeRow := opcodeRowsWide ++ opcodeRowsXY ++ opcodeRowsX

/-- The word `w` is the row's instruction (R54). -/
def OpcodeRow.accepts (row : OpcodeRow) (w : Word) : Bool := decide (w &&& row.mask = row.pattern)

/-- The word is one of the 34 forms; every other word is illegal (R54, R55). -/
def wordWellFormed (w : Word) : Bool := opcodeRows.any (·.accepts w)

end Sys2Proof
end

