-- ==== Sys2Proof/Decode.lean ====
section
/-! DEFINITION. The decoder (spec/30_encoding.md R53, R55, R61) and, after it, the encoder, both from the formats of R51 and the
fields of spec/00_scope.md R7. -/

namespace Sys2Proof

/-- `op = w[15:12]` (R7). -/
def opField (w : Word) : BitVec 4 := w.extractLsb' 12 4

/-- `x = w[11:8]` (R7). -/
def xField (w : Word) : Reg := w.extractLsb' 8 4

/-- `y = w[7:4]` (R7). -/
def yField (w : Word) : Reg := w.extractLsb' 4 4

/-- `n = w[3:0]` (R7). -/
def nField (w : Word) : Nibble := w.extractLsb' 0 4

/-- `kk = w[7:0]` (R7). -/
def kkField (w : Word) : Byte := w.extractLsb' 0 8

/-- `addr = w[11:0]` (R7). -/
def addrField (w : Word) : Addr12 := w.extractLsb' 0 12

/-- The 0x0 family: the whole word must match, so SYS 0nnn is unknown (R53, R56). -/
def decodeZ (w : Word) : Option Instr :=
  if w = 0x00E0#16 then some .cls else if w = 0x00EE#16 then some .ret else none

/-- The 0x8 family, told apart by the low nibble (R53). -/
def decodeAlu (x y : Reg) (n : Nibble) : Option Instr :=
  match n with
  | 0x0#4 => some (.ldReg x y)
  | 0x1#4 => some (.orReg x y)
  | 0x2#4 => some (.andReg x y)
  | 0x3#4 => some (.xorReg x y)
  | 0x4#4 => some (.addReg x y)
  | 0x5#4 => some (.subReg x y)
  | 0x6#4 => some (.shr x y)
  | 0x7#4 => some (.subnReg x y)
  | 0xE#4 => some (.shl x y)
  | _ => none

/-- The 0xE family, told apart by the low byte (R53). -/
def decodeKey (x : Reg) (kk : Byte) : Option Instr :=
  match kk with
  | 0x9E#8 => some (.skp x)
  | 0xA1#8 => some (.sknp x)
  | _ => none

/-- The 0xF family, told apart by the low byte (R53). -/
def decodeMisc (x : Reg) (kk : Byte) : Option Instr :=
  match kk with
  | 0x07#8 => some (.ldVxDt x)
  | 0x0A#8 => some (.ldVxK x)
  | 0x15#8 => some (.ldDtVx x)
  | 0x18#8 => some (.ldStVx x)
  | 0x1E#8 => some (.addI x)
  | 0x29#8 => some (.ldF x)
  | 0x33#8 => some (.ldB x)
  | 0x55#8 => some (.ldMemVx x)
  | 0x65#8 => some (.ldVxMem x)
  | _ => none

/-- The decode algorithm of R53: a pure, total function of the word (R61); `none` is the verdict unknown-opcode (R55). -/
def decodeWord (w : Word) : Option Instr :=
  match opField w with
  | 0x0#4 => decodeZ w
  | 0x1#4 => some (.jp (addrField w))
  | 0x2#4 => some (.call (addrField w))
  | 0x3#4 => some (.seImm (xField w) (kkField w))
  | 0x4#4 => some (.sneImm (xField w) (kkField w))
  | 0x5#4 => if nField w = 0#4 then some (.seReg (xField w) (yField w)) else none
  | 0x6#4 => some (.ldImm (xField w) (kkField w))
  | 0x7#4 => some (.addImm (xField w) (kkField w))
  | 0x8#4 => decodeAlu (xField w) (yField w) (nField w)
  | 0x9#4 => if nField w = 0#4 then some (.sneReg (xField w) (yField w)) else none
  | 0xA#4 => some (.ldI (addrField w))
  | 0xB#4 => some (.jpV0 (addrField w))
  | 0xC#4 => some (.rnd (xField w) (kkField w))
  | 0xD#4 => some (.drw (xField w) (yField w) (nField w))
  | 0xE#4 => decodeKey (xField w) (kkField w)
  | _ => decodeMisc (xField w) (kkField w)

/-- The big-endian word of two bytes, high byte first (spec/20_memory.md R32). -/
def wordOfBytes (hi lo : Byte) : Word := hi ++ lo

/-- The high byte of a word, at its lower address (R32, R50). -/
def hiByte (w : Word) : Byte := w.extractLsb' 8 8

/-- The low byte of a word, at its higher address (R32, R50). -/
def loByte (w : Word) : Byte := w.extractLsb' 0 8

/-- Why a byte sequence gives no instruction. -/
inductive DecodeError where
  /-- Fewer than the two bytes every instruction has (R50). -/
  | truncated
  /-- The word matches no row of R54 (R55). -/
  | unknownOpcode (w : Word)
  deriving DecidableEq, Repr

/-- Decoding from bytes: the instruction of the first two and the bytes that follow it (R50, R61). -/
def decode : List Byte → Except DecodeError (Instr × List Byte)
  | hi :: lo :: rest =>
    match decodeWord (wordOfBytes hi lo) with
    | some i => .ok (i, rest)
    | none => .error (.unknownOpcode (wordOfBytes hi lo))
  | _ => .error .truncated

/-- Format A: op, addr (R51). -/
def wordA (op : BitVec 4) (addr : Addr12) : Word := op ++ addr

/-- Format XK: op, x, kk (R51). -/
def wordXK (op : BitVec 4) (x : Reg) (kk : Byte) : Word := op ++ (x ++ kk)

/-- Formats XY and XYN: op, x, y, low nibble (R51). -/
def wordXYN (op : BitVec 4) (x y : Reg) (n : BitVec 4) : Word := op ++ (x ++ (y ++ n))

/-- The word of an instruction: its row of R54 with the operand fields in place. -/
def encodeWord : Instr → Word
  | .cls => 0x00E0#16
  | .ret => 0x00EE#16
  | .jp addr => wordA 0x1#4 addr
  | .call addr => wordA 0x2#4 addr
  | .seImm x kk => wordXK 0x3#4 x kk
  | .sneImm x kk => wordXK 0x4#4 x kk
  | .seReg x y => wordXYN 0x5#4 x y 0x0#4
  | .ldImm x kk => wordXK 0x6#4 x kk
  | .addImm x kk => wordXK 0x7#4 x kk
  | .ldReg x y => wordXYN 0x8#4 x y 0x0#4
  | .orReg x y => wordXYN 0x8#4 x y 0x1#4
  | .andReg x y => wordXYN 0x8#4 x y 0x2#4
  | .xorReg x y => wordXYN 0x8#4 x y 0x3#4
  | .addReg x y => wordXYN 0x8#4 x y 0x4#4
  | .subReg x y => wordXYN 0x8#4 x y 0x5#4
  | .shr x y => wordXYN 0x8#4 x y 0x6#4
  | .subnReg x y => wordXYN 0x8#4 x y 0x7#4
  | .shl x y => wordXYN 0x8#4 x y 0xE#4
  | .sneReg x y => wordXYN 0x9#4 x y 0x0#4
  | .ldI addr => wordA 0xA#4 addr
  | .jpV0 addr => wordA 0xB#4 addr
  | .rnd x kk => wordXK 0xC#4 x kk
  | .drw x y n => wordXYN 0xD#4 x y n
  | .skp x => wordXK 0xE#4 x 0x9E#8
  | .sknp x => wordXK 0xE#4 x 0xA1#8
  | .ldVxDt x => wordXK 0xF#4 x 0x07#8
  | .ldVxK x => wordXK 0xF#4 x 0x0A#8
  | .ldDtVx x => wordXK 0xF#4 x 0x15#8
  | .ldStVx x => wordXK 0xF#4 x 0x18#8
  | .addI x => wordXK 0xF#4 x 0x1E#8
  | .ldF x => wordXK 0xF#4 x 0x29#8
  | .ldB x => wordXK 0xF#4 x 0x33#8
  | .ldMemVx x => wordXK 0xF#4 x 0x55#8
  | .ldVxMem x => wordXK 0xF#4 x 0x65#8

/-- The bytes of an instruction as memory holds them: high byte first (R50, R32). -/
def encode (i : Instr) : List Byte := [hiByte (encodeWord i), loByte (encodeWord i)]

/-- The 16-bit word the opcode table's numbering gives: bit 0 is the least significant bit of the word, the bits above
`nbits` are 0. -/
def tableWord (nbits w : Nat) : Word := BitVec.ofNat 16 (w % 2 ^ nbits)

/-- What the decoder reads from the bytes of a word numbered as the opcode table numbers it, laid out big-endian. -/
def decodeTableWord (nbits w : Nat) : Option Instr :=
  match decode [hiByte (tableWord nbits w), loByte (tableWord nbits w)] with
  | .ok (i, _) => some i
  | .error _ => none

end Sys2Proof
end

