-- ==== Sys2Proof/Machine/State.lean ====
section
/-! DEFINITION. The machine's state as plain data (spec/10_state.md), the reasons a step could stop, and the state after reset. -/

namespace Sys2Proof.Machine

/-- Memory (spec/20_memory.md R30): the addresses that differ from what an unlisted address reads as, strictly rising. -/
abbrev Memory := List Host.Cell

/-- The kind an AddressFault records (spec/60_exceptions.md R170). -/
inductive AccessKind where
  | fetch
  | read
  | write
  deriving DecidableEq, Repr

/-- The FAULT latch: a fault code with the information of its kind (10_state.md R21, 60_exceptions.md R170). Code 0 carries no
information, which R21 leaves unspecified and no rule reads (log entry 11). -/
inductive FaultLatch where
  /-- Code 0: no fault. -/
  | none
  /-- Code 1, raised by the decode of any step (R171): the word and the PC it was fetched from. -/
  | unknownOpcode (w : Word) (pc : Word)
  /-- Code 2, raised by the fetch of any step, DRW, LD B, LD [I], Vx and LD Vx, [I] (R172): the lowest offending address, an
  unbounded integer, the kind of access, and PC. -/
  | addressFault (addr : Nat) (kind : AccessKind) (pc : Word)
  /-- Code 3, raised by CALL (R173): the value that was to be pushed. -/
  | stackOverflow (v : Word)
  /-- Code 4, raised by RET (R174): PC. -/
  | stackUnderflow (pc : Word)
  /-- Code 5, raised by SKP and SKNP (R175): the value of Vx, and PC. -/
  | keyIndexFault (k : Byte) (pc : Word)
  /-- Code 6, raised by Reset only (R186): the length of the ROM image. -/
  | romSizeFault (len : Nat)
  deriving DecidableEq, Repr

/-- The display buffer (10_state.md R19) with its dirty-range accumulator (R20). While `dirty` is false, `dmin` and `dmax` mean
nothing. -/
structure Display where
  /-- `disp[0]` to `disp[63]`. -/
  words : Vector DispWord 64
  dirty : Bool
  dmin : Fin 64
  dmax : Fin 64
  deriving DecidableEq, Repr

/-- The inputs of one step (10_state.md R24): the keypad snapshot (46_keypad.md R140) and the random byte, 0 to 254
(44_random.md R110; log entry 3). -/
structure StepInput where
  key : Vector Bool 16
  rnd : Fin 255
  deriving DecidableEq, Repr

/-- The state of the machine. `inputs` and `stepNo` are the MODEL's own (log entry 2): what the host will give with its next
steps, oldest first, and the index of the free values used when `inputs` is empty. Every step uses one pair up and counts one. -/
structure State where
  /-- V0 to VF (R10); VF, number 15, is the flag register (R11). -/
  v : Vector Byte 16
  /-- I, the index register (R12). -/
  i : Word
  /-- PC, the program counter (R13). -/
  pc : Word
  /-- SP, the number of live stack entries, 0 to 16 (R14). -/
  sp : Fin 17
  /-- The call stack, outside memory (R15). -/
  stack : Vector Word 16
  /-- DT, the delay timer (R16). -/
  dt : Byte
  /-- ST, the sound timer (R17). -/
  st : Byte
  /-- The 4096 bytes of memory (R18). -/
  mem : Memory
  /-- The display buffer and its dirty range (R19, R20). -/
  display : Display
  /-- The FAULT latch (R21). -/
  fault : FaultLatch
  /-- Pending inputs, the model's own field. -/
  inputs : List StepInput
  /-- Steps taken, the model's own field. -/
  stepNo : Nat
  deriving DecidableEq, Repr

/-- Host faults. NONE IS EVER ANSWERED, and the type is empty: every fault of this machine has an entry the spec describes
(60_exceptions.md R176), which is a next state with the FAULT latch set (log entry 1; safe). -/
inductive Fault where
  deriving DecidableEq, Repr

/-- Host refusals. -/
inductive Refusal where
  /-- An instruction that has no meaning yet, raised by exec's arm for it. Safe. No arm raises it: all 34 forms have their
  meaning. -/
  | notModelled (mnemonic : String)
  deriving DecidableEq, Repr

/-- The display buffer at reset: created zeroed and clean (R26; RESET_DIRTY = 0, log entry 6); `dmin` and `dmax` are
unspecified while clean (DESIGN CHOICE 0, log entry 8; unsafe). -/
def Display.reset : Display where
  words := Vector.replicate 64 0#32
  dirty := false
  dmin := 0
  dmax := 0

/-- The state right after Reset of an empty ROM image (R26, R190; log entry 10): memory lists nothing. The stack entries are
unspecified by R26 (DESIGN CHOICE 0, log entry 7; unsafe). -/
def State.reset : State where
  v := Vector.replicate 16 0#8
  i := 0#16
  pc := 0x200#16
  sp := 0
  stack := Vector.replicate 16 0#16
  dt := 0#8
  st := 0#8
  mem := []
  display := Display.reset
  fault := .none
  inputs := []
  stepNo := 0

end Sys2Proof.Machine
end

