-- ==== Sys2Proof/Machine/Operands.lean ====
section
/-! DEFINITION. The operand forms: V registers (spec/10_state.md R10), immediates and addresses widened with zeros (30_encoding.md
R52), the font address (20_memory.md R47), the register block, the inputs of the step (10_state.md R24). -/

namespace Sys2Proof.Machine

/-- `V[x]` (R6, R10): the 4-bit field is the index. -/
def State.getV (s : State) (x : Reg) : Byte := s.v[x.toNat]'(x.isLt)

/-- `V[x] <- b` (R6, R10). -/
def State.setV (s : State) (x : Reg) (b : Byte) : State := { s with v := s.v.set x.toNat b x.isLt }

/-- The flag register VF, V[15] (R11). -/
def vF : Reg := 0xF#4

/-- `zext_16(addr)` (R52). -/
def zextAddr (addr : Addr12) : Word := addr.setWidth 16

/-- `zext_16(b)` of a register's byte (R87, R154). -/
def zextByte (b : Byte) : Word := b.setWidth 16

/-- `FontAddr(d) = 0x050 + 5*d` at 16 bits, unmasked for d > 15 (R47, R155; FONT_DIGIT_POLICY, DESIGN CHOICE, log entry 9). -/
def fontAddr (d : Byte) : Word := 0x050#16 + 5#16 * zextByte d

/-- I as the unbounded integer that the address generator adds its offset to (R37). -/
def State.iAddr (s : State) : Nat := s.i.toNat

/-- V0 to Vx in ascending order, the block of `LD [I], Vx` (R157). -/
def State.regBlock (s : State) (x : Reg) : List Byte :=
  (List.range (x.toNat + 1)).map fun k => s.getV (BitVec.ofNat 4 k)

/-- Bytes loaded into consecutive registers from number `k` on, ascending (R158). -/
def State.loadRegs : State → Nat → List Byte → State
  | s, _, [] => s
  | s, k, b :: bs => State.loadRegs (s.setV (BitVec.ofNat 4 k) b) (k + 1) bs

/-- The hundreds, tens and ones digits of a byte, one byte each (R156). -/
def bcdDigits (v : Byte) : List Byte := [v / 100#8, v / 10#8 % 10#8, v % 10#8]

/-- The inputs of the step being executed (R24): the next pending pair, or free values where none is pending (log entry 2). -/
def State.input (s : State) : StepInput :=
  match s.inputs with
  | inp :: _ => inp
  | [] => { key := Config.freeKeys s.stepNo, rnd := Config.freeRnd s.stepNo }

/-- The random byte of the step, 0 to 254 (R110). -/
def State.rndByte (s : State) : Byte := BitVec.ofNat 8 s.input.rnd.val

/-- The key-wait's scan in ascending order 0 to 15: the least pressed key (R143). -/
def lowestKey (key : Vector Bool 16) : Option (Fin 16) := (List.finRange 16).find? fun k => key[k]

end Sys2Proof.Machine
end

