-- ==== Sys2Proof/Machine/Flags.lean ====
section
/-! DEFINITION. The flag computations: VF is the machine's only flag (spec/10_state.md R11), and these are all the values an
instruction puts into it as a side effect. -/

namespace Sys2Proof.Machine

/-- A flag as the byte VF takes: 1 or 0. -/
def flagByte (c : Bool) : Byte := if c then 1#8 else 0#8

/-- `VF <- 1 if c else 0` (R11). -/
def State.setFlag (s : State) (c : Bool) : State := s.setV vF (flagByte c)

/-- The carry of an 8-bit addition: `a + b > 255` on exact integers (42_arithmetic.md R96). -/
def carryFlag (a b : Byte) : Bool := decide (a.toNat + b.toNat > 255)

/-- The NOT-borrow of `a - b`: `a >= b`, true when equal (R96). -/
def notBorrowFlag (a b : Byte) : Bool := decide (a.toNat ≥ b.toNat)

/-- The bit a right shift drops: bit 0 (43_bitwise_shift.md R103). -/
def shiftOutRight (a : Byte) : Bool := a.getLsbD 0

/-- The bit a left shift drops: bit 7 (R104). -/
def shiftOutLeft (a : Byte) : Bool := a.getLsbD 7

end Sys2Proof.Machine
end

