-- ==== Sys2Proof/Machine/Memory.lean ====
section
/-! DEFINITION. The 4096-byte memory (spec/20_memory.md R30, R31, R34): what an unlisted address reads as, one-byte reads and
writes on the canonical form, and the form itself. The range check is the access controller's (Machine/Ops.lean). -/

namespace Sys2Proof.Machine

/-- FONT_BASE (spec/00_scope.md R4). -/
def fontBase : Nat := 0x050

/-- ROM_BASE (R4). -/
def romBase : Nat := 0x200

/-- ROM_MAX (R4): 4096 - 0x200 bytes. -/
def romMax : Nat := 3584

/-- MEM_RESET_FILL, an open parameter (70_reset_and_hazards.md R190, D25). DESIGN CHOICE 0x00, the value R26 recommends (log entry
4; unsafe). -/
def memResetFill : Byte := 0x00#8

/-- Glyphs 0 to 7 of FONT_TABLE (R194). -/
def fontLow : List Byte :=
  [0xF0#8, 0x90#8, 0x90#8, 0x90#8, 0xF0#8, 0x20#8, 0x60#8, 0x20#8, 0x20#8, 0x70#8,
   0xF0#8, 0x10#8, 0xF0#8, 0x80#8, 0xF0#8, 0xF0#8, 0x10#8, 0xF0#8, 0x10#8, 0xF0#8,
   0x90#8, 0x90#8, 0xF0#8, 0x10#8, 0x10#8, 0xF0#8, 0x80#8, 0xF0#8, 0x10#8, 0xF0#8,
   0xF0#8, 0x80#8, 0xF0#8, 0x90#8, 0xF0#8, 0xF0#8, 0x10#8, 0x20#8, 0x40#8, 0x40#8]

/-- Glyphs 8 to F of FONT_TABLE (R194). -/
def fontHigh : List Byte :=
  [0xF0#8, 0x90#8, 0xF0#8, 0x90#8, 0xF0#8, 0xF0#8, 0x90#8, 0xF0#8, 0x10#8, 0xF0#8,
   0xF0#8, 0x90#8, 0xF0#8, 0x90#8, 0x90#8, 0xE0#8, 0x90#8, 0xE0#8, 0x90#8, 0xE0#8,
   0xF0#8, 0x80#8, 0x80#8, 0x80#8, 0xF0#8, 0xE0#8, 0x90#8, 0x90#8, 0x90#8, 0xE0#8,
   0xF0#8, 0x80#8, 0xF0#8, 0x80#8, 0xF0#8, 0xF0#8, 0x80#8, 0xF0#8, 0x80#8, 0x80#8]

/-- FONT_TABLE, an open parameter, at its standard value (R194, D28; DESIGN CHOICE, log entry 5; unsafe for a claim about glyph
shapes). -/
def fontTable : List Byte := fontLow ++ fontHigh

/-- What an address that memory does not list reads as: its contents after Reset of an empty ROM image (R31, R190). -/
def unlistedByte (a : Nat) : Byte :=
  if fontBase ≤ a then fontTable.getD (a - fontBase) memResetFill else memResetFill

/-- One byte read (R34): the last value written, or the reset value. -/
def Memory.read : Memory → Nat → Byte
  | [], a => unlistedByte a
  | (c, b) :: rest, a => if a = c then b else Memory.read rest a

/-- The cell of `a` put in front, unless `b` is what `a` reads as unlisted. -/
def Memory.cons (a : Nat) (b : Byte) (rest : Memory) : Memory :=
  if b = unlistedByte a then rest else (a, b) :: rest

/-- One byte written (R34, R36): nothing but that byte changes, and the canonical form is kept. -/
def Memory.write : Memory → Nat → Byte → Memory
  | [], a, b => Memory.cons a b []
  | (c, d) :: rest, a, b =>
    if a < c then Memory.cons a b ((c, d) :: rest)
    else if a = c then Memory.cons a b rest
    else (c, d) :: Memory.write rest a b

/-- Bytes written one by one at ascending addresses (R32). -/
def Memory.writeBytes : Memory → Nat → List Byte → Memory
  | m, _, [] => m
  | m, a, b :: bs => Memory.writeBytes (m.write a b) (a + 1) bs

/-- The canonical form from address `lo` on: strictly rising addresses below MEM_SIZE, no byte equal to what its address reads as
unlisted. -/
def Memory.wfFrom : Nat → Memory → Bool
  | _, [] => true
  | lo, (c, b) :: rest =>
    decide (lo ≤ c) && decide (c < Config.memSize) && decide (b ≠ unlistedByte c) && Memory.wfFrom (c + 1) rest

/-- The canonical form of memory. -/
def Memory.wf (m : Memory) : Bool := Memory.wfFrom 0 m

end Sys2Proof.Machine
end

