-- ==== Sys2Proof/Machine/Ops.lean ====
section
/-! DEFINITION. The shared operations: fault entry (spec/60_exceptions.md R176), the PC outcomes (40_execution_cycle.md R74), the
access controller (20_memory.md R35 to R37), the call stack (R44, R45), the key test's index check (46_keypad.md R141), the
timer tick (R75). There is no return from a fault: FAULT is sticky and only Reset clears it (R179). -/

namespace Sys2Proof.Machine

/-- The fault code (R170). -/
def FaultLatch.code : FaultLatch → Nat
  | .none => 0
  | .unknownOpcode _ _ => 1
  | .addressFault _ _ _ => 2
  | .stackOverflow _ => 3
  | .stackUnderflow _ => 4
  | .keyIndexFault _ _ => 5
  | .romSizeFault _ => 6

/-- The machine is halted: FAULT.code is not 0 (R77). -/
def State.halted (s : State) : Bool := decide (s.fault.code ≠ 0)

/-- Fault entry (R176): FAULT takes the code and its information; nothing else changes, so PC stays at the faulting instruction,
and there is no vector, no saved register and no mode change. -/
def State.raise (s : State) (f : FaultLatch) : State := { s with fault := f }

/-- The four PC outcomes of a handler (R74). -/
inductive PcOutcome where
  | advance
  | skip
  | jump (t : Word)
  | stay
  deriving DecidableEq, Repr

/-- NextPC (R74), modulo 2^16 (R13). -/
def nextPc (pc : Word) : PcOutcome → Word
  | .advance => pc + 2#16
  | .skip => pc + 4#16
  | .jump t => t
  | .stay => pc

/-- The handler's end: PC takes the outcome's value (R73, R74). -/
def State.finish (s : State) (o : PcOutcome) : State := { s with pc := nextPc s.pc o }

/-- The end of a skip instruction: skip if the condition holds, else advance (R74). -/
def State.skipIf (s : State) (c : Bool) : State := s.finish (if c then .skip else .advance)

/-- The lowest of the `n` addresses from `a` on that exceeds 0xFFF (R35, R37): the sums are exact, never masked. -/
def firstOutOfRange (a n : Nat) : Option Nat := ((List.range n).map (a + ·)).find? fun b => decide (b > 0xFFF)

/-- The access controller's check of the `n` bytes from `a` on, before any of them is accessed (R35 to R37, R177). -/
def State.checkRange (s : State) (a n : Nat) (kind : AccessKind) : Except FaultLatch Unit :=
  match firstOutOfRange a n with
  | some bad => .error (.addressFault bad kind s.pc)
  | none => .ok ()

/-- The `n` bytes from `a` on, each a MemRead of one byte, all range checks first (R35). -/
def State.readBlock (s : State) (a n : Nat) : Except FaultLatch (List Byte) :=
  match s.checkRange a n .read with
  | .error f => .error f
  | .ok _ => .ok ((List.range n).map fun k => s.mem.read (a + k))

/-- The bytes `bs` stored from `a` on, each a MemWrite of one byte, all range checks first (R36). -/
def State.writeBlock (s : State) (a : Nat) (bs : List Byte) : Except FaultLatch State :=
  match s.checkRange a bs.length .write with
  | .error f => .error f
  | .ok _ => .ok { s with mem := s.mem.writeBytes a bs }

/-- `Push(v)` (R44): `stack[SP] <- v`, then SP + 1; StackOverflow if SP = 16. -/
def State.push (s : State) (v : Word) : Except FaultLatch State :=
  if h : s.sp.val < 16 then .ok { s with stack := s.stack.set s.sp.val v h, sp := ⟨s.sp.val + 1, by omega⟩ }
  else .error (.stackOverflow v)

/-- `Pop()` (R45): SP - 1, then `stack[SP]`; the entry is not erased; StackUnderflow if SP = 0. -/
def State.pop (s : State) : Except FaultLatch (Word × State) :=
  if h : 0 < s.sp.val then
    .ok (s.stack[s.sp.val - 1]'(by omega), { s with sp := ⟨s.sp.val - 1, by omega⟩ })
  else .error (.stackUnderflow s.pc)

/-- `key[V[x]]` of this step's snapshot, the whole byte being the index; KeyIndexFault above 15 (R141, R142). -/
def State.keyTest (s : State) (x : Reg) : Except FaultLatch Bool :=
  if h : (s.getV x).toNat < 16 then .ok (s.input.key[(s.getV x).toNat]'h)
  else .error (.keyIndexFault (s.getV x) s.pc)

/-- One timer's tick: down by 1, never below 0 (R75). -/
def tickTimer (t : Byte) : Byte := if t ≠ 0#8 then t - 1#8 else t

/-- The timer tick at the end of a completed step (R75). -/
def State.tick (s : State) : State := { s with dt := tickTimer s.dt, st := tickTimer s.st }

/-- The step's inputs are used up, however the step ends: the machine keeps no copy of them (R24; the model's own fields, log
entry 2). -/
def State.consumeInput (s : State) : State := { s with inputs := s.inputs.tail, stepNo := s.stepNo + 1 }

/-- The beep output, `ST != 0` (R183). -/
def State.beep (s : State) : Bool := decide (s.st ≠ 0#8)

end Sys2Proof.Machine
end

