-- ==== Sys2Proof/Machine/Cycle.lean ====
section
/-! DEFINITION. The parts of a step around Execute (spec/40_execution_cycle.md R70 to R72, R75, R76): fetch, decode, completion; and
the placing of a word where the next fetch reads. -/

namespace Sys2Proof.Machine

/-- `MemRead(PC, 2)`, the big-endian word at PC and PC + 1, PC of any parity (R71; 20_memory.md R32, R33, R39). -/
def State.fetchWord (s : State) : Except FaultLatch Word :=
  match s.checkRange s.pc.toNat 2 .fetch with
  | .error f => .error f
  | .ok _ => .ok (wordOfBytes (s.mem.read s.pc.toNat) (s.mem.read (s.pc.toNat + 1)))

/-- Fetch, then decode; an unknown word raises UnknownOpcode with the word and PC (R72, R171). -/
def State.fetchInstr (s : State) : Except FaultLatch Instr :=
  match s.fetchWord with
  | .error f => .error f
  | .ok w =>
    match decodeWord w with
    | some i => .ok i
    | none => .error (.unknownOpcode w s.pc)

/-- The end of a step whose Execute gave `t`: the tick, unless `t` is faulted (R75, R76); the inputs are used up in both cases
(R24). -/
def State.afterExec (t : State) : State := (if t.halted then t else t.tick).consumeInput

/-- The end of a step, on the outcome of Execute. -/
def completeStep : Host.Outcome State Fault Refusal → Host.Outcome State Fault Refusal
  | .next t => .next t.afterExec
  | .fault r => .fault r
  | .refused r => .refused r

/-- The word `w` stored big-endian at PC and PC + 1, where the next step fetches (R39); with PC above 0xFFE there is no such
place and nothing is stored (log entry 16). -/
def State.placeWord (s : State) (w : Word) : State :=
  match s.writeBlock s.pc.toNat [hiByte w, loByte w] with
  | .error _ => s
  | .ok t => t

end Sys2Proof.Machine
end

