-- ==== Sys2Proof/Machine/Arithmetic.lean ====
section
/-! DEFINITION. Register loads and 8-bit arithmetic (spec/42_arithmetic.md). ADD, SUB and SUBN read both operands, write the
result, then the flag (R97), so with x = F the flag survives. -/

namespace Sys2Proof.Machine

/-- The result into V[x], then the flag into VF, then advance (R97). -/
def State.resultThenFlag (s : State) (x : Reg) (r : Byte) (flag : Bool) : State :=
  ((s.setV x r).setFlag flag).finish .advance

/-- `LD Vx, kk` (R90). -/
def execLdImm (x : Reg) (kk : Byte) (s : State) : Host.Outcome State Fault Refusal :=
  .next ((s.setV x kk).finish .advance)

/-- `ADD Vx, kk` (R91): no flag. -/
def execAddImm (x : Reg) (kk : Byte) (s : State) : Host.Outcome State Fault Refusal :=
  .next ((s.setV x (s.getV x + kk)).finish .advance)

/-- `LD Vx, Vy` (R92). -/
def execLdReg (x y : Reg) (s : State) : Host.Outcome State Fault Refusal :=
  .next ((s.setV x (s.getV y)).finish .advance)

/-- `ADD Vx, Vy` (R93). -/
def execAddReg (x y : Reg) (s : State) : Host.Outcome State Fault Refusal :=
  .next (s.resultThenFlag x (s.getV x + s.getV y) (carryFlag (s.getV x) (s.getV y)))

/-- `SUB Vx, Vy` (R94). -/
def execSubReg (x y : Reg) (s : State) : Host.Outcome State Fault Refusal :=
  .next (s.resultThenFlag x (s.getV x - s.getV y) (notBorrowFlag (s.getV x) (s.getV y)))

/-- `SUBN Vx, Vy` (R95). -/
def execSubnReg (x y : Reg) (s : State) : Host.Outcome State Fault Refusal :=
  .next (s.resultThenFlag x (s.getV y - s.getV x) (notBorrowFlag (s.getV y) (s.getV x)))

end Sys2Proof.Machine
end

