-- ==== Sys2Proof/Machine/Bitwise.lean ====
section
/-! DEFINITION. Bitwise operations and shifts (spec/43_bitwise_shift.md). OR, AND and XOR leave VF alone; the shifts write VF
first and then read V[x] again, so with x = F the flag just written is shifted (R103, R104). -/

namespace Sys2Proof.Machine

/-- `OR Vx, Vy` (R100). -/
def execOrReg (x y : Reg) (s : State) : Host.Outcome State Fault Refusal :=
  .next ((s.setV x (s.getV x ||| s.getV y)).finish .advance)

/-- `AND Vx, Vy` (R101). -/
def execAndReg (x y : Reg) (s : State) : Host.Outcome State Fault Refusal :=
  .next ((s.setV x (s.getV x &&& s.getV y)).finish .advance)

/-- `XOR Vx, Vy` (R102). -/
def execXorReg (x y : Reg) (s : State) : Host.Outcome State Fault Refusal :=
  .next ((s.setV x (s.getV x ^^^ s.getV y)).finish .advance)

/-- The flag into VF, then `f` of V[x] as it now reads into V[x], then advance (R103, R104). -/
def State.flagThenResult (s : State) (x : Reg) (flag : Bool) (f : Byte → Byte) : State :=
  ((s.setFlag flag).setV x (f ((s.setFlag flag).getV x))).finish .advance

/-- `SHR Vx`; y is ignored (R103, R57). -/
def execShr (x _y : Reg) (s : State) : Host.Outcome State Fault Refusal :=
  .next (s.flagThenResult x (shiftOutRight (s.getV x)) (· / 2#8))

/-- `SHL Vx`; y is ignored (R104, R57). -/
def execShl (x _y : Reg) (s : State) : Host.Outcome State Fault Refusal :=
  .next (s.flagThenResult x (shiftOutLeft (s.getV x)) (· * 2#8))

end Sys2Proof.Machine
end

