-- ==== Sys2Proof/Machine/ControlFlow.lean ====
section
/-! DEFINITION. The control flow instructions (spec/41_control_flow.md). -/

namespace Sys2Proof.Machine

/-- `RET` (R80): PC takes the popped value, then advances. -/
def execRet (s : State) : Host.Outcome State Fault Refusal :=
  match s.pop with
  | .error f => .next (s.raise f)
  | .ok (a, t) => .next (State.finish { t with pc := a } .advance)

/-- `JP addr` (R81). -/
def execJp (addr : Addr12) (s : State) : Host.Outcome State Fault Refusal :=
  .next (s.finish (.jump (zextAddr addr)))

/-- `CALL addr` (R82): pushes the address of the CALL itself. -/
def execCall (addr : Addr12) (s : State) : Host.Outcome State Fault Refusal :=
  match s.push s.pc with
  | .error f => .next (s.raise f)
  | .ok t => .next (t.finish (.jump (zextAddr addr)))

/-- `SE Vx, kk` (R83). -/
def execSeImm (x : Reg) (kk : Byte) (s : State) : Host.Outcome State Fault Refusal :=
  .next (s.skipIf (s.getV x == kk))

/-- `SNE Vx, kk` (R84). -/
def execSneImm (x : Reg) (kk : Byte) (s : State) : Host.Outcome State Fault Refusal :=
  .next (s.skipIf (s.getV x != kk))

/-- `SE Vx, Vy` (R85). -/
def execSeReg (x y : Reg) (s : State) : Host.Outcome State Fault Refusal :=
  .next (s.skipIf (s.getV x == s.getV y))

/-- `SNE Vx, Vy` (R86). -/
def execSneReg (x y : Reg) (s : State) : Host.Outcome State Fault Refusal :=
  .next (s.skipIf (s.getV x != s.getV y))

/-- `JP V0, addr` (R87): addr plus V0 at 16 bits, not reduced to 12. -/
def execJpV0 (addr : Addr12) (s : State) : Host.Outcome State Fault Refusal :=
  .next (s.finish (.jump (zextAddr addr + zextByte (s.getV 0#4))))

end Sys2Proof.Machine
end

