-- ==== Sys2Proof/Machine/DisplayBuffer.lean ====
section
/-! DEFINITION. The display buffer's own operations (spec/45_display.md R120 to R124, R129) and the drawing of a sprite (R127).
Coordinates are bounded types, which is R129's precondition. -/

namespace Sys2Proof.Machine

/-- The storage word of a pixel, `y * 2 + x / 32` (R120). -/
def wordIndex (x : Fin 64) (y : Fin 32) : Fin 64 := ⟨y.val * 2 + x.val / 32, by omega⟩

/-- The bit of a pixel in its word, `31 - x % 32` (R120). -/
def bitPos (x : Fin 64) : Nat := 31 - x.val % 32

/-- `Pix(x, y)` (R121). -/
def Display.pix (d : Display) (x : Fin 64) (y : Fin 32) : Bool := (d.words[wordIndex x y]).getLsbD (bitPos x)

/-- The word with bit `p` set to `b`, the other bits kept. -/
def setBit (w : DispWord) (p : Nat) (b : Bool) : DispWord :=
  if b then w ||| 1#32 <<< p else w &&& ~~~(1#32 <<< p)

/-- The dirty range extended to the word `w`, or started with it (R122). -/
def Display.touch (d : Display) (w : Fin 64) : Display :=
  if d.dirty then { d with dmin := min d.dmin w, dmax := max d.dmax w }
  else { d with dirty := true, dmin := w, dmax := w }

/-- `SetPix(x, y, b)` (R122): the dirty range is updated whether or not the pixel changes. -/
def Display.setPix (d : Display) (x : Fin 64) (y : Fin 32) (b : Bool) : Display :=
  Display.touch { d with words := d.words.set (wordIndex x y) (setBit d.words[wordIndex x y] (bitPos x) b) } (wordIndex x y)

/-- `ClearDisp(b)` (R123): every bit becomes `b` and the whole buffer is dirty. -/
def Display.clear (b : Bool) : Display where
  words := Vector.replicate 64 (if b then 0xFFFFFFFF#32 else 0#32)
  dirty := true
  dmin := 0
  dmax := 63

/-- `Pull()` (R124): the byte offset and the words of the dirty range, if any; then the buffer is clean. `dmin` and `dmax`, which
then mean nothing, stay as they are (log entry 8). -/
def Display.pull (d : Display) : Option (Nat × List DispWord) × Display :=
  if d.dirty then
    (some (d.dmin.val * 4, (d.words.toList.drop d.dmin.val).take (d.dmax.val + 1 - d.dmin.val)), { d with dirty := false })
  else (none, d)

/-- The source bit of column `b`, 0 the leftmost: bit 7 - b of the row byte (R127, point a). -/
def spriteBit (row : Byte) (b : Nat) : Bool := row.getLsbD (7 - b)

/-- The column of sprite bit `b`, wrapping (R127). -/
def drawCol (x0 : Byte) (b : Nat) : Fin 64 := ⟨(x0.toNat + b) % 64, Nat.mod_lt _ (by decide)⟩

/-- The display row of sprite row `r`, wrapping (R127). -/
def drawRow (y0 : Byte) (r : Nat) : Fin 32 := ⟨(y0.toNat + r) % 32, Nat.mod_lt _ (by decide)⟩

/-- A drawing in progress: the display and the collision so far. -/
structure Drawing where
  display : Display
  hit : Bool
  deriving DecidableEq, Repr

/-- One source bit on one pixel (R127): SetPix of `old ^ src` for every bit, also when src = 0 (point c), and
`VF <- VF | (src & old)`. -/
def drawPixel (px : Fin 64) (py : Fin 32) (src : Bool) (g : Drawing) : Drawing where
  display := g.display.setPix px py (g.display.pix px py ^^ src)
  hit := g.hit || (src && g.display.pix px py)

/-- One row byte at display row `py`: its eight bits from left to right (R127). -/
def drawByte (x0 : Byte) (py : Fin 32) (row : Byte) (g : Drawing) : Drawing :=
  (List.range 8).foldl (fun g b => drawPixel (drawCol x0 b) py (spriteBit row b) g) g

/-- The rows in ascending order from sprite row `r` on (R127). -/
def drawRows (x0 y0 : Byte) : Nat → List Byte → Drawing → Drawing
  | _, [], g => g
  | r, row :: rows, g => drawRows x0 y0 (r + 1) rows (drawByte x0 (drawRow y0 r) row g)

/-- The whole sprite drawn, the collision cleared first (R127). -/
def drawSprite (x0 y0 : Byte) (rows : List Byte) (d : Display) : Drawing :=
  drawRows x0 y0 0 rows { display := d, hit := false }

end Sys2Proof.Machine
end

