-- ==== Sys2Proof/Machine/Draw.lean ====
section
/-! DEFINITION. The display instructions (spec/45_display.md R126, R127). -/

namespace Sys2Proof.Machine

/-- `CLS` (R126): ClearDisp(0); VF is not changed. -/
def execCls (s : State) : Host.Outcome State Fault Refusal :=
  .next (State.finish { s with display := Display.clear false } .advance)

/-- `DRW Vx, Vy, n` (R127): the coordinates are latched and all row bytes read and checked before VF, the display or the dirty
range is touched; a failing check raises AddressFault with none of the effect. -/
def execDrw (x y : Reg) (n : Nibble) (s : State) : Host.Outcome State Fault Refusal :=
  match s.readBlock s.iAddr n.toNat with
  | .error f => .next (s.raise f)
  | .ok rows =>
    let g := drawSprite (s.getV x) (s.getV y) rows s.display
    .next ((State.setFlag { s with display := g.display } g.hit).finish .advance)

end Sys2Proof.Machine
end

