-- ==== Sys2Proof/Machine/Keypad.lean ====
section
/-! DEFINITION. The key instructions (spec/46_keypad.md). -/

namespace Sys2Proof.Machine

/-- `SKP Vx` (R141). -/
def execSkp (x : Reg) (s : State) : Host.Outcome State Fault Refusal :=
  match s.keyTest x with
  | .error f => .next (s.raise f)
  | .ok pressed => .next (s.skipIf pressed)

/-- `SKNP Vx` (R142). -/
def execSknp (x : Reg) (s : State) : Host.Outcome State Fault Refusal :=
  match s.keyTest x with
  | .error f => .next (s.raise f)
  | .ok pressed => .next (s.skipIf (!pressed))

/-- The key-wait's effect: the least pressed key into V[x] and advance, or stay with nothing changed (R143). -/
def State.keyWait (s : State) (x : Reg) : State :=
  match lowestKey s.input.key with
  | some k => (s.setV x (BitVec.ofNat 8 k.val)).finish .advance
  | none => s.finish .stay

/-- `LD Vx, K` (R143). -/
def execLdVxK (x : Reg) (s : State) : Host.Outcome State Fault Refusal :=
  .next (s.keyWait x)

end Sys2Proof.Machine
end

