-- ==== Sys2Proof/Machine/Random.lean ====
section
/-! DEFINITION. The random byte instruction (spec/44_random.md). -/

namespace Sys2Proof.Machine

/-- `RND Vx, kk` (R111): this step's random byte, 0 to 254, and the mask. -/
def execRnd (x : Reg) (kk : Byte) (s : State) : Host.Outcome State Fault Refusal :=
  .next ((s.setV x (s.rndByte &&& kk)).finish .advance)

end Sys2Proof.Machine
end

