-- ==== Sys2Proof/Machine/Transfer.lean ====
section
/-! DEFINITION. Index, timer, font, BCD and register-block transfer instructions (spec/47_timer_index_transfer.md). A timer written
here is ticked at the end of the same step (R75), which is the step's part, not the instruction's. -/

namespace Sys2Proof.Machine

/-- `LD I, addr` (R150). -/
def execLdI (addr : Addr12) (s : State) : Host.Outcome State Fault Refusal :=
  .next (State.finish { s with i := zextAddr addr } .advance)

/-- `LD Vx, DT` (R151): DT before this step's tick. -/
def execLdVxDt (x : Reg) (s : State) : Host.Outcome State Fault Refusal :=
  .next ((s.setV x s.dt).finish .advance)

/-- `LD DT, Vx` (R152). -/
def execLdDtVx (x : Reg) (s : State) : Host.Outcome State Fault Refusal :=
  .next (State.finish { s with dt := s.getV x } .advance)

/-- `LD ST, Vx` (R153). -/
def execLdStVx (x : Reg) (s : State) : Host.Outcome State Fault Refusal :=
  .next (State.finish { s with st := s.getV x } .advance)

/-- `ADD I, Vx` (R154): 16-bit wrap-around, no flag. -/
def execAddI (x : Reg) (s : State) : Host.Outcome State Fault Refusal :=
  .next (State.finish { s with i := s.i + zextByte (s.getV x) } .advance)

/-- `LD F, Vx` (R155). -/
def execLdF (x : Reg) (s : State) : Host.Outcome State Fault Refusal :=
  .next (State.finish { s with i := fontAddr (s.getV x) } .advance)

/-- `LD B, Vx` (R156). -/
def execLdB (x : Reg) (s : State) : Host.Outcome State Fault Refusal :=
  match s.writeBlock s.iAddr (bcdDigits (s.getV x)) with
  | .error f => .next (s.raise f)
  | .ok t => .next (t.finish .advance)

/-- `LD [I], Vx` (R157): I keeps its value. -/
def execLdMemVx (x : Reg) (s : State) : Host.Outcome State Fault Refusal :=
  match s.writeBlock s.iAddr (s.regBlock x) with
  | .error f => .next (s.raise f)
  | .ok t => .next (t.finish .advance)

/-- `LD Vx, [I]` (R158): all bytes are read and checked before a register changes; I keeps its value. -/
def execLdVxMem (x : Reg) (s : State) : Host.Outcome State Fault Refusal :=
  match s.readBlock s.iAddr (x.toNat + 1) with
  | .error f => .next (s.raise f)
  | .ok bytes => .next ((s.loadRegs 0 bytes).finish .advance)

end Sys2Proof.Machine
end

