-- ==== Sys2Proof/Machine/Step.lean ====
section
/-! DEFINITION. One step of the machine (spec/40_execution_cycle.md R70). -/

namespace Sys2Proof.Machine

/-- `Step(key, rnd)` (R70): a halted machine changes nothing (R77) but the model's own inputs, which every
step uses up (R24, log entry 2); otherwise fetch, decode, execute and PC update, timer tick; a
fault of any stage takes the fault entry (R76). -/
def step (s : State) : Host.Outcome State Fault Refusal :=
  if s.halted then .next s.consumeInput
  else
    match s.fetchInstr with
    | .error f => .next (s.raise f).consumeInput
    | .ok i => completeStep (exec i s)

/-- The instruction word `w`, numbered as the opcode table numbers it, stored where `step` fetches its next instruction. -/
def State.withFetchWord (s : State) (nbits w : Nat) : State := s.placeWord (tableWord nbits w)

end Sys2Proof.Machine
end

