-- ==== Sys2Proof/Machine/HostOps.lean ====
section
/-! DEFINITION. The host's operations other than Step (spec/10_state.md R27): Reset with a ROM image (70_reset_and_hazards.md R190) and
Pull (45_display.md R124), each between steps. -/

namespace Sys2Proof.Machine

/-- The state after Reset of a ROM image that fits (R190, R193): byte k of the image at 0x200 + k. -/
def State.resetWith (rom : List Byte) : State :=
  { State.reset with mem := State.reset.mem.writeBytes romBase rom }

/-- `Reset(rom)` (R190), from any state, halted or not: an image longer than ROM_MAX is refused with RomSizeFault and the rest of
the state as it was, of which R186 makes no claim (log entry 14). The pairs still in `inputs` belong to
steps to come, since every earlier step has used its own up, and stay (log entry 2). -/
def hostReset (rom : List Byte) (s : State) : State :=
  if rom.length > romMax then s.raise (.romSizeFault rom.length)
  else { State.resetWith rom with inputs := s.inputs, stepNo := s.stepNo }

/-- `Pull()` (R124): the display delta, if any, and the state with a clean buffer. It works on a halted machine too (R77). -/
def hostPull (s : State) : Option (Nat × List DispWord) × State :=
  (s.display.pull.1, { s with display := s.display.pull.2 })

/-- The inputs of one more step to come made known, after those already pending (R24). -/
def State.giveInput (s : State) (inp : StepInput) : State := { s with inputs := s.inputs ++ [inp] }

/-- `Step(key, rnd)` with its arguments (R70): one step on exactly this pair, of which nothing is left afterwards (R24). -/
def hostStep (inp : StepInput) (s : State) : Host.Outcome State Fault Refusal := step { s with inputs := [inp] }

end Sys2Proof.Machine
end

