-- ==== Sys2Proof/Safety.lean ====
section
/-! DEFINITION. The terms claims are stated in: what two states share (the frame of an instruction), the invariant of the model, and
the declarative picture of a sprite. -/

namespace Sys2Proof.Machine

/-- Every V register outside `written` reads the same. -/
def SameV (s t : State) (written : List Reg) : Prop := ∀ r : Reg, r ∉ written → t.getV r = s.getV r

/-- Every byte of memory reads the same. -/
def SameMem (s t : State) : Prop := ∀ a : Nat, t.mem.read a = s.mem.read a

/-- Every byte of memory outside the `n` addresses from `lo` on reads the same. -/
def SameMemOutside (s t : State) (lo n : Nat) : Prop := ∀ a : Nat, (a < lo ∨ lo + n ≤ a) → t.mem.read a = s.mem.read a

/-- SP and every stack entry are the same. -/
def SameStack (s t : State) : Prop := t.sp = s.sp ∧ t.stack = s.stack

/-- Both timers are the same. -/
def SameTimers (s t : State) : Prop := t.dt = s.dt ∧ t.st = s.st

/-- The FAULT latch and the model's own fields (the pending inputs and their count) are the same. -/
def SameLatch (s t : State) : Prop := t.fault = s.fault ∧ t.inputs = s.inputs ∧ t.stepNo = s.stepNo

/-- Everything but the V registers and PC is the same. -/
def SameBeyondV (s t : State) : Prop :=
  t.i = s.i ∧ SameMem s t ∧ SameStack s t ∧ SameTimers s t ∧ t.display = s.display ∧ SameLatch s t

/-- Everything but PC is the same. -/
def SameButPc (s t : State) : Prop := SameV s t [] ∧ SameBeyondV s t

/-- What an instruction may write besides PC and, on a fault, FAULT: the write column of spec/10_state.md R28. -/
structure WriteSet where
  /-- V registers. -/
  regs : List Reg := []
  /-- I. -/
  index : Bool := false
  /-- SP. -/
  sp : Bool := false
  /-- The stack entries. -/
  stack : Bool := false
  /-- DT. -/
  delay : Bool := false
  /-- ST. -/
  sound : Bool := false
  /-- How many bytes of memory, from I on. -/
  memLen : Nat := 0
  /-- The display buffer and its dirty range. -/
  display : Bool := false
  deriving DecidableEq, Repr

/-- The write column of R28, row by row. -/
def writeSet : Instr → WriteSet
  | .cls => { display := true }
  | .ret => { sp := true }
  | .call _ => { sp := true, stack := true }
  | .jp _ | .jpV0 _ | .seImm _ _ | .sneImm _ _ | .seReg _ _ | .sneReg _ _ | .skp _ | .sknp _ => {}
  | .ldImm x _ | .addImm x _ | .ldReg x _ | .orReg x _ | .andReg x _ | .xorReg x _ | .rnd x _ | .ldVxDt x | .ldVxK x =>
    { regs := [x] }
  | .addReg x _ | .subReg x _ | .subnReg x _ | .shr x _ | .shl x _ => { regs := [x, vF] }
  | .ldI _ | .addI _ | .ldF _ => { index := true }
  | .drw _ _ _ => { regs := [vF], display := true }
  | .ldDtVx _ => { delay := true }
  | .ldStVx _ => { sound := true }
  | .ldB _ => { memLen := 3 }
  | .ldMemVx x => { memLen := x.toNat + 1 }
  | .ldVxMem x => { regs := (List.range (x.toNat + 1)).map (BitVec.ofNat 4) }

/-- The invariant of the model: memory is in canonical form, and a pending dirty range is a range (spec/10_state.md R20, R29). The
other bounds of R29 are the types of the fields. -/
def State.inv (s : State) : Bool :=
  s.mem.wf && (!s.display.dirty || decide (s.display.dmin ≤ s.display.dmax))

/-- The source bit that a sprite of `rows` at (x0, y0) has for the pixel (px, py), if the sprite's box covers the pixel: row r
and column b of the sprite with `px = (x0 + b) % 64` and `py = (y0 + r) % 32` (spec/45_display.md R127). -/
def spriteAt (x0 y0 : Byte) (rows : List Byte) (px : Fin 64) (py : Fin 32) : Option Bool :=
  let b := (px.val + 64 - x0.toNat % 64) % 64
  let r := (py.val + 32 - y0.toNat % 32) % 32
  if b < 8 then rows[r]?.map (spriteBit · b) else none

/-- The sprite turns off a lit pixel of `d` (R127). -/
def spriteCollides (x0 y0 : Byte) (rows : List Byte) (d : Display) : Prop :=
  ∃ px py, spriteAt x0 y0 rows px py = some true ∧ d.pix px py = true

end Sys2Proof.Machine
end

