-- ==== Sys2Proof/Certificates/Slice0/Obligations.lean ====
section
/-! DEFINITION. The statements for the provers. Each is about one rule, or a group of rules of one shape, of spec/; a statement about an
instruction begins with the word that decodes to it and names the next state's every component. -/

open Sys2Proof Sys2Proof.Machine

/-! ## Encoding -/

/-- R51, R53, R54: decoding the encoding of any instruction gives it back, whatever bytes follow; so no bit of an operand is
dropped, y of SHR and SHL included (R57). -/
def Obligations.DecodeOfEncodeIsIdentity : Prop :=
  ∀ (ins : Instr) (rest : List Byte), decode (encode ins ++ rest) = .ok (ins, rest)

/-- R53, R61: a word that decodes is the word of the instruction it decodes to, so two words never decode alike. -/
def Obligations.DecodedWordIsItsEncoding : Prop :=
  ∀ (w : Word) (ins : Instr), decodeWord w = some ins → encodeWord ins = w

/-- R54, R55: the decoder gives an instruction exactly for the words that match a row of the mask and match table. -/
def Obligations.DecoderAcceptsExactlyTableRows : Prop :=
  ∀ w : Word, (decodeWord w).isSome = true ↔ ∃ row ∈ opcodeRows, w &&& row.mask = row.pattern

/-- R54: no word matches two rows. -/
def Obligations.NoWordMatchesTwoRows : Prop :=
  ∀ w : Word, opcodeRows.countP (·.accepts w) ≤ 1

/-- R58, R52: every instruction term is well-formed: no operand value is illegal. -/
def Obligations.EveryOperandValueIsLegal : Prop := ∀ ins : Instr, ins.wellFormed = true

/-- R54, sample words of 95_test_vectors.md: one or more of every format decode to what they stand for. -/
def Obligations.SampleWordsDecode : Prop :=
  decode [0x00#8, 0xE0#8] = .ok (.cls, []) ∧ decode [0x1A#8, 0xBC#8] = .ok (.jp 0xABC#12, []) ∧
  decode [0x3A#8, 0x7F#8] = .ok (.seImm 0xA#4 0x7F#8, []) ∧ decode [0x8A#8, 0xBE#8] = .ok (.shl 0xA#4 0xB#4, []) ∧
  decode [0xD0#8, 0x1F#8] = .ok (.drw 0#4 1#4 15#4, []) ∧ decode [0xF8#8, 0x55#8] = .ok (.ldMemVx 8#4, []) ∧
  decode [0x00#8, 0x00#8] = .error (.unknownOpcode 0#16)

/-! ## The step -/

/-- R70 to R75: when the word at PC decodes, the step is exec of that instruction, then, if it did not fault, one tick of each timer
(down by 1, floored at 0), with everything else as exec left it but the model's own inputs, of which every step uses one pair up
and counts one (R24, log entry 2). -/
def Obligations.StepRunsDecodedInstruction : Prop :=
  ∀ (s t : State) (ins : Instr), s.fault = .none → s.pc.toNat ≤ 0xFFE →
    decodeWord (s.mem.read s.pc.toNat ++ s.mem.read (s.pc.toNat + 1)) = some ins → exec ins s = .next t →
    (t.fault = .none → step s = .next { t with
      dt := BitVec.ofNat 8 (t.dt.toNat - 1), st := BitVec.ofNat 8 (t.st.toNat - 1),
      inputs := t.inputs.tail, stepNo := t.stepNo + 1 }) ∧
    (t.fault ≠ .none → step s = .next { t with inputs := t.inputs.tail, stepNo := t.stepNo + 1 })

/-- R77: a halted machine's step changes nothing (the model's own inputs apart, log entry 2); Pull still answers the pending range and beep still reflects ST; Reset leaves
the state.
It is the spec's decision D30 (log entry 13). -/
def Obligations.HaltedMachineOnlyLeavesByReset : Prop :=
  ∀ s : State, s.fault ≠ .none →
    step s = .next { s with inputs := s.inputs.tail, stepNo := s.stepNo + 1 } ∧ s.beep = decide (s.st ≠ 0#8) ∧
    ((hostPull s).1.isSome = s.display.dirty ∧ (hostPull s).2.fault = s.fault) ∧
    ∀ rom : List Byte, rom.length ≤ 3584 → (hostReset rom s).fault = .none

/-- R39: the fetch succeeds exactly when PC <= 0xFFE, at any parity; PC = 0xFFF and PC >= 0x1000 raise AddressFault with the lowest
offending address, and the step changes nothing else (the model's own inputs apart, log entry 2).
The fault is the spec's decision D2, the parity its decision D31 (log entry 13). -/
def Obligations.FetchSucceedsUpToFFE : Prop :=
  ∀ s : State,
    (s.pc.toNat ≤ 0xFFE → s.fetchWord = .ok (s.mem.read s.pc.toNat ++ s.mem.read (s.pc.toNat + 1))) ∧
    (s.fault = .none → s.pc.toNat = 0xFFF → step s = .next { s with
      fault := .addressFault 0x1000 .fetch s.pc, inputs := s.inputs.tail, stepNo := s.stepNo + 1 }) ∧
    (s.fault = .none → 0x1000 ≤ s.pc.toNat → step s = .next { s with
      fault := .addressFault s.pc.toNat .fetch s.pc, inputs := s.inputs.tail, stepNo := s.stepNo + 1 })

/-- R72, R171: a fetched word that is no instruction raises UnknownOpcode with the word and PC, and the step changes nothing
else (the model's own inputs apart, log entry 2).
The strict decoding is the spec's decision D8 (log entry 13). -/
def Obligations.UnknownWordFaults : Prop :=
  ∀ s : State, s.fault = .none → s.pc.toNat ≤ 0xFFE →
    wordWellFormed (s.mem.read s.pc.toNat ++ s.mem.read (s.pc.toNat + 1)) = false →
    step s = .next { s with
      fault := .unknownOpcode (s.mem.read s.pc.toNat ++ s.mem.read (s.pc.toNat + 1)) s.pc,
      inputs := s.inputs.tail, stepNo := s.stepNo + 1 }

/-- R76, R177: a faulting step changes no state other than FAULT (the model's own inputs apart, log entry 2); in particular PC stays
and the timers do not tick.
It is the spec's decision D9 (log entry 13). -/
def Obligations.FaultingStepChangesOnlyFault : Prop :=
  ∀ s t : State, s.fault = .none → step s = .next t → t.fault ≠ .none →
    t = { s with fault := t.fault, inputs := s.inputs.tail, stepNo := s.stepNo + 1 }

/-- R78, R70: from every state the step answers a next state; there is no stuck state. -/
def Obligations.EveryStepAnswersNextState : Prop := ∀ s : State, ∃ t, step s = .next t

/-- R24: every step, completed, faulting or of a halted machine, uses up the pair of inputs that was its own, so no later step sees it;
of the pair that the host gives with `Step(key, rnd)` nothing is left. The queue and the count are the model's own form of R24 (log
entry 2). -/
def Obligations.EveryStepUsesUpItsInput : Prop :=
  (∀ s t : State, step s = .next t → t.inputs = s.inputs.tail ∧ t.stepNo = s.stepNo + 1) ∧
  ∀ (inp : StepInput) (s t : State), hostStep inp s = .next t → t.inputs = []

/-- R75, R182: along every completed step a timer is what the instruction left, down by one; DT reaches the end of the step from the
value exec left, and only LD DT leaves a value that is not the step's first. -/
def Obligations.TimersCountDownUnlessLoaded : Prop :=
  ∀ s t : State, s.fault = .none → step s = .next t → t.fault = .none →
    (t.dt.toNat = s.dt.toNat - 1 ∨ ∃ x, s.fetchInstr = .ok (.ldDtVx x) ∧ t.dt.toNat = (s.getV x).toNat - 1) ∧
    (t.st.toNat = s.st.toNat - 1 ∨ ∃ x, s.fetchInstr = .ok (.ldStVx x) ∧ t.st.toNat = (s.getV x).toNat - 1)

/-- R178: which execute-stage fault each instruction can have, with its information (R170).
R178 marks this as the spec's own inference. -/
def Obligations.EachInstructionHasOneFaultKind : Prop :=
  ∀ (ins : Instr) (s t : State), s.fault = .none → exec ins s = .next t → t.fault ≠ .none →
    match ins with
    | .call _ => t.fault = .stackOverflow s.pc
    | .ret => t.fault = .stackUnderflow s.pc
    | .skp x | .sknp x => t.fault = .keyIndexFault (s.getV x) s.pc
    | .drw _ _ _ | .ldVxMem _ => ∃ a, 0xFFF < a ∧ t.fault = .addressFault a .read s.pc
    | .ldB _ | .ldMemVx _ => ∃ a, 0xFFF < a ∧ t.fault = .addressFault a .write s.pc
    | _ => False

/-! ## Invariants and whole-machine rules -/

/-- R29, R20: memory in canonical form and a pending dirty range that is a range are kept by every step. -/
def Obligations.StepKeepsInvariant : Prop :=
  ∀ s t : State, s.inv = true → step s = .next t → t.inv = true

/-- The invariant holds at reset. -/
def Obligations.ResetMeetsInvariant : Prop := State.reset.inv = true

/-- R28: an instruction writes nothing outside its row's write set, but for PC, and FAULT if it faults.
R28 marks the table as the spec's own inference. -/
def Obligations.InstructionsWriteOnlyTheirWriteSet : Prop :=
  ∀ (ins : Instr) (s t : State), s.mem.wf = true → exec ins s = .next t →
    SameV s t (writeSet ins).regs ∧ ((writeSet ins).index = false → t.i = s.i) ∧
    ((writeSet ins).sp = false → t.sp = s.sp) ∧ ((writeSet ins).stack = false → t.stack = s.stack) ∧
    ((writeSet ins).delay = false → t.dt = s.dt) ∧ ((writeSet ins).sound = false → t.st = s.st) ∧
    SameMemOutside s t s.i.toNat (writeSet ins).memLen ∧ ((writeSet ins).display = false → t.display = s.display) ∧
    t.inputs = s.inputs ∧ t.stepNo = s.stepNo

/-- R28 (reads column), R110: the keypad snapshot is read by SKP, SKNP and LD Vx, K only, and the random byte by RND only: any other
instruction's result is the same whatever they are.
R28 marks its table as the spec's own inference, and that a step without RND ignores the random byte is the spec's decision D29 (log
entry 13). -/
def Obligations.InputsReadOnlyByTheirInstructions : Prop :=
  ∀ (ins : Instr) (s t : State) (key key' : Vector Bool 16) (r r' : Fin 255) (rest : List StepInput),
    exec ins { s with inputs := ⟨key, r⟩ :: rest } = .next t →
    ((∀ x kk, ins ≠ .rnd x kk) →
      exec ins { s with inputs := ⟨key, r'⟩ :: rest } = .next { t with inputs := ⟨key, r'⟩ :: rest }) ∧
    ((∀ x, ins ≠ .skp x ∧ ins ≠ .sknp x ∧ ins ≠ .ldVxK x) →
      exec ins { s with inputs := ⟨key', r⟩ :: rest } = .next { t with inputs := ⟨key', r⟩ :: rest })

/-! ## Control flow -/

/-- R81: JP addr. -/
def Obligations.JumpLoadsAddress : Prop :=
  ∀ (addr : Addr12) (s : State),
    decodeWord (0x1#4 ++ addr) = some (.jp addr) ∧
    ∃ t, exec (.jp addr) s = .next t ∧ t.pc.toNat = addr.toNat ∧ SameButPc s t

/-- R87: JP V0, addr: the target is addr + V0, up to 0x10FE, not reduced to 12 bits. -/
def Obligations.JumpV0AddsUnmasked : Prop :=
  ∀ (addr : Addr12) (s : State),
    decodeWord (0xB#4 ++ addr) = some (.jpV0 addr) ∧
    ∃ t, exec (.jpV0 addr) s = .next t ∧ t.pc.toNat = addr.toNat + (s.getV 0#4).toNat ∧ SameButPc s t

/-- R82, R44: CALL addr pushes its own address into the slot SP names and jumps; with SP = 16 it raises StackOverflow and nothing else
changes.
The pushed value, the slot and the fault are the spec's decisions D12, D13, D4 (log entry 13). -/
def Obligations.CallPushesOwnAddress : Prop :=
  ∀ (addr : Addr12) (s : State),
    decodeWord (0x2#4 ++ addr) = some (.call addr) ∧
    (s.sp.val < 16 → ∃ t, exec (.call addr) s = .next t ∧ t.pc.toNat = addr.toNat ∧ t.sp.val = s.sp.val + 1 ∧
      (∀ k : Fin 16, t.stack[k] = if k.val = s.sp.val then s.pc else s.stack[k]) ∧
      SameV s t [] ∧ t.i = s.i ∧ SameMem s t ∧ SameTimers s t ∧ t.display = s.display ∧ SameLatch s t) ∧
    (s.sp.val = 16 → exec (.call addr) s = .next { s with fault := .stackOverflow s.pc })

/-- R80, R45: RET pops a and leaves PC = a + 2, the entry not erased; with SP = 0 it raises StackUnderflow and nothing else
changes.
The resumption at a + 2 and the fault are the spec's decisions D12, D5 (log entry 13). -/
def Obligations.ReturnResumesAfterCall : Prop :=
  ∀ s : State,
    decodeWord 0x00EE#16 = some .ret ∧
    (∀ k : Fin 16, s.sp.val = k.val + 1 → ∃ t, exec .ret s = .next t ∧ t.pc = s.stack[k] + 2#16 ∧ t.sp.val = k.val ∧
      t.stack = s.stack ∧ SameV s t [] ∧ t.i = s.i ∧ SameMem s t ∧ SameTimers s t ∧ t.display = s.display ∧ SameLatch s t) ∧
    (s.sp.val = 0 → exec .ret s = .next { s with fault := .stackUnderflow s.pc })

/-- R82, R80 (90_conflicts.md C4): a RET that follows a CALL resumes at the instruction after the CALL with the stack depth
restored, whatever happened in between to anything but the stack.
It is the spec's decision D12 (log entry 13). -/
def Obligations.ReturnAfterCallComesBack : Prop :=
  ∀ (addr : Addr12) (s t u : State), s.sp.val < 16 → exec (.call addr) s = .next t → u.sp = t.sp → u.stack = t.stack →
    ∃ w, exec .ret u = .next w ∧ w.pc = s.pc + 2#16 ∧ w.sp = s.sp

/-- R83 to R86: the four skips on register values: PC + 4 when the condition holds, else PC + 2, nothing else changed. -/
def Obligations.SkipsCompareRegisters : Prop :=
  ∀ (x y : Reg) (kk : Byte) (s : State),
    (decodeWord (0x3#4 ++ (x ++ kk)) = some (.seImm x kk) ∧ decodeWord (0x4#4 ++ (x ++ kk)) = some (.sneImm x kk) ∧
      decodeWord (0x5#4 ++ (x ++ (y ++ 0x0#4))) = some (.seReg x y) ∧
      decodeWord (0x9#4 ++ (x ++ (y ++ 0x0#4))) = some (.sneReg x y)) ∧
    (∃ t, exec (.seImm x kk) s = .next t ∧ t.pc = s.pc + (if s.getV x = kk then 4#16 else 2#16) ∧ SameButPc s t) ∧
    (∃ t, exec (.sneImm x kk) s = .next t ∧ t.pc = s.pc + (if s.getV x = kk then 2#16 else 4#16) ∧ SameButPc s t) ∧
    (∃ t, exec (.seReg x y) s = .next t ∧ t.pc = s.pc + (if s.getV x = s.getV y then 4#16 else 2#16) ∧ SameButPc s t) ∧
    (∃ t, exec (.sneReg x y) s = .next t ∧ t.pc = s.pc + (if s.getV x = s.getV y then 2#16 else 4#16) ∧ SameButPc s t)

/-! ## Arithmetic -/

/-- R90, R92: LD Vx, kk and LD Vx, Vy; VF is written only as an ordinary destination. -/
def Obligations.LoadsSetOneRegister : Prop :=
  ∀ (x y : Reg) (kk : Byte) (s : State),
    (decodeWord (0x6#4 ++ (x ++ kk)) = some (.ldImm x kk) ∧ decodeWord (0x8#4 ++ (x ++ (y ++ 0x0#4))) = some (.ldReg x y)) ∧
    (∃ t, exec (.ldImm x kk) s = .next t ∧ t.getV x = kk ∧ t.pc = s.pc + 2#16 ∧ SameV s t [x] ∧ SameBeyondV s t) ∧
    (∃ t, exec (.ldReg x y) s = .next t ∧ t.getV x = s.getV y ∧ t.pc = s.pc + 2#16 ∧ SameV s t [x] ∧ SameBeyondV s t)

/-- R91: ADD Vx, kk wraps and sets no flag.
That VF is kept is the spec's decision D16 (log entry 13). -/
def Obligations.AddImmediateWrapsWithoutFlag : Prop :=
  ∀ (x : Reg) (kk : Byte) (s : State),
    decodeWord (0x7#4 ++ (x ++ kk)) = some (.addImm x kk) ∧
    ∃ t, exec (.addImm x kk) s = .next t ∧ (t.getV x).toNat = ((s.getV x).toNat + kk.toNat) % 256 ∧
      t.pc = s.pc + 2#16 ∧ SameV s t [x] ∧ SameBeyondV s t

/-- R93, R97: ADD Vx, Vy: the sum modulo 256, then VF = carry; with x = F the flag survives.
The case x = F is the spec's decision D14 (log entry 12). -/
def Obligations.AddSetsCarry : Prop :=
  ∀ (x y : Reg) (s : State),
    decodeWord (0x8#4 ++ (x ++ (y ++ 0x4#4))) = some (.addReg x y) ∧
    ∃ t, exec (.addReg x y) s = .next t ∧
      (x ≠ vF → (t.getV x).toNat = ((s.getV x).toNat + (s.getV y).toNat) % 256) ∧
      t.getV vF = (if (s.getV x).toNat + (s.getV y).toNat > 255 then 1#8 else 0#8) ∧
      t.pc = s.pc + 2#16 ∧ SameV s t [x, vF] ∧ SameBeyondV s t

/-- R94, R97: SUB Vx, Vy: the difference modulo 256, then VF = 1 exactly when Vx >= Vy; with x = F the flag survives.
The case x = F is the spec's decision D14 (log entry 12). -/
def Obligations.SubSetsNotBorrow : Prop :=
  ∀ (x y : Reg) (s : State),
    decodeWord (0x8#4 ++ (x ++ (y ++ 0x5#4))) = some (.subReg x y) ∧
    ∃ t, exec (.subReg x y) s = .next t ∧
      (x ≠ vF → (t.getV x).toNat = ((s.getV x).toNat + 256 - (s.getV y).toNat) % 256) ∧
      t.getV vF = (if (s.getV x).toNat ≥ (s.getV y).toNat then 1#8 else 0#8) ∧
      t.pc = s.pc + 2#16 ∧ SameV s t [x, vF] ∧ SameBeyondV s t

/-- R95, R97: SUBN Vx, Vy: Vy - Vx modulo 256, then VF = 1 exactly when Vy >= Vx; with x = F the flag survives.
The case x = F is the spec's decision D14, the flag its decision D18 (log entries 12, 13). -/
def Obligations.SubnSetsNotBorrow : Prop :=
  ∀ (x y : Reg) (s : State),
    decodeWord (0x8#4 ++ (x ++ (y ++ 0x7#4))) = some (.subnReg x y) ∧
    ∃ t, exec (.subnReg x y) s = .next t ∧
      (x ≠ vF → (t.getV x).toNat = ((s.getV y).toNat + 256 - (s.getV x).toNat) % 256) ∧
      t.getV vF = (if (s.getV y).toNat ≥ (s.getV x).toNat then 1#8 else 0#8) ∧
      t.pc = s.pc + 2#16 ∧ SameV s t [x, vF] ∧ SameBeyondV s t

/-! ## Bitwise operations and shifts -/

/-- R100 to R102: OR, AND, XOR bit by bit; VF is left unchanged unless x = F.
That VF is kept is the spec's decision D17 (log entry 13). -/
def Obligations.BitwiseOpsLeaveVf : Prop :=
  ∀ (x y : Reg) (s : State),
    (decodeWord (0x8#4 ++ (x ++ (y ++ 0x1#4))) = some (.orReg x y) ∧
      decodeWord (0x8#4 ++ (x ++ (y ++ 0x2#4))) = some (.andReg x y) ∧
      decodeWord (0x8#4 ++ (x ++ (y ++ 0x3#4))) = some (.xorReg x y)) ∧
    (∃ t, exec (.orReg x y) s = .next t ∧
      (∀ k, (t.getV x).getLsbD k = ((s.getV x).getLsbD k || (s.getV y).getLsbD k)) ∧
      t.pc = s.pc + 2#16 ∧ SameV s t [x] ∧ SameBeyondV s t) ∧
    (∃ t, exec (.andReg x y) s = .next t ∧
      (∀ k, (t.getV x).getLsbD k = ((s.getV x).getLsbD k && (s.getV y).getLsbD k)) ∧
      t.pc = s.pc + 2#16 ∧ SameV s t [x] ∧ SameBeyondV s t) ∧
    (∃ t, exec (.xorReg x y) s = .next t ∧
      (∀ k, (t.getV x).getLsbD k = ((s.getV x).getLsbD k ^^ (s.getV y).getLsbD k)) ∧
      t.pc = s.pc + 2#16 ∧ SameV s t [x] ∧ SameBeyondV s t)

/-- R103, R57: SHR Vx: Vx halved and VF the old bit 0; with x = F, VF ends as 0; y has no effect.
The case x = F is the spec's decision D15 (log entry 12). -/
def Obligations.ShiftRightHalves : Prop :=
  ∀ (x y : Reg) (s : State),
    decodeWord (0x8#4 ++ (x ++ (y ++ 0x6#4))) = some (.shr x y) ∧
    ∃ t, exec (.shr x y) s = .next t ∧
      (x ≠ vF → (t.getV x).toNat = (s.getV x).toNat / 2 ∧ (t.getV vF).toNat = (s.getV x).toNat % 2) ∧
      (x = vF → t.getV vF = 0#8) ∧
      t.pc = s.pc + 2#16 ∧ SameV s t [x, vF] ∧ SameBeyondV s t

/-- R104, R57: SHL Vx: Vx doubled modulo 256 and VF the old bit 7; with x = F, VF ends as 2 if it held 0x80 or more and as 0
otherwise; y has no effect.
The case x = F is the spec's decision D15 (log entry 12). -/
def Obligations.ShiftLeftDoubles : Prop :=
  ∀ (x y : Reg) (s : State),
    decodeWord (0x8#4 ++ (x ++ (y ++ 0xE#4))) = some (.shl x y) ∧
    ∃ t, exec (.shl x y) s = .next t ∧
      (x ≠ vF → (t.getV x).toNat = (s.getV x).toNat * 2 % 256 ∧ (t.getV vF).toNat = (s.getV x).toNat / 128) ∧
      (x = vF → t.getV vF = (if (s.getV vF).toNat ≥ 0x80 then 2#8 else 0#8)) ∧
      t.pc = s.pc + 2#16 ∧ SameV s t [x, vF] ∧ SameBeyondV s t

/-! ## Random -/

/-- R110, R111: RND Vx, kk: this step's random byte, 0 to 254 (the input where one is pending), under the mask; with kk = 0xFF never
0xFF. The bound rests on the range of R110 (log entry 3). -/
def Obligations.RandomByteIsMasked : Prop :=
  ∀ (x : Reg) (kk : Byte) (s : State),
    decodeWord (0xC#4 ++ (x ++ kk)) = some (.rnd x kk) ∧
    ∃ (t : State) (r : Byte), exec (.rnd x kk) s = .next t ∧ r.toNat ≤ 254 ∧ t.getV x = r &&& kk ∧
      (∀ inp rest, s.inputs = inp :: rest → r.toNat = inp.rnd.val) ∧ (kk = 0xFF#8 → t.getV x ≠ 0xFF#8) ∧
      t.pc = s.pc + 2#16 ∧ SameV s t [x] ∧ SameBeyondV s t

/-! ## Display -/

/-- R121, R122: SetPix sets one pixel and no other, and the dirty range starts with, or is widened by, that pixel's word, whether or
not the pixel changed.
The last clause is the spec's decision D20 (log entry 13). -/
def Obligations.SetPixChangesOnePixel : Prop :=
  ∀ (d : Display) (x : Fin 64) (y : Fin 32) (b : Bool),
    (∀ (x' : Fin 64) (y' : Fin 32), (d.setPix x y b).pix x' y' = if x' = x ∧ y' = y then b else d.pix x' y') ∧
    (d.setPix x y b).dirty = true ∧
    (d.setPix x y b).dmin.val = (if d.dirty then min d.dmin.val (y.val * 2 + x.val / 32) else y.val * 2 + x.val / 32) ∧
    (d.setPix x y b).dmax.val = (if d.dirty then max d.dmax.val (y.val * 2 + x.val / 32) else y.val * 2 + x.val / 32)

/-- R126, R123: CLS makes every pixel dark and the whole buffer dirty; VF is not changed. -/
def Obligations.ClearDarkensAndDirtiesAll : Prop :=
  ∀ s : State,
    decodeWord 0x00E0#16 = some .cls ∧
    ∃ t, exec .cls s = .next t ∧ (∀ x y, t.display.pix x y = false) ∧
      (t.display.dirty = true ∧ t.display.dmin.val = 0 ∧ t.display.dmax.val = 63) ∧
      t.pc = s.pc + 2#16 ∧ SameV s t [] ∧ t.i = s.i ∧ SameMem s t ∧ SameStack s t ∧ SameTimers s t ∧ SameLatch s t

/-- R127: DRW XORs the sprite's bits, read from memory at I, into the pixels its wrapped box covers, and VF is 1 exactly when a source
bit 1 met a lit pixel. The sprite's picture is given by spriteAt, position by position, not by the drawing loop.
The corner x = F or y = F and the leftmost bit are the spec's decisions D19, D21 (log entries 12, 13). -/
def Obligations.DrawXorsSpriteAndReportsCollision : Prop :=
  ∀ (x y : Reg) (n : Nibble) (s : State) (rows : List Byte),
    rows = (List.range n.toNat).map (fun r => s.mem.read (s.i.toNat + r)) →
    (n.toNat = 0 ∨ s.i.toNat + n.toNat ≤ 0x1000) →
    decodeWord (0xD#4 ++ (x ++ (y ++ n))) = some (.drw x y n) ∧
    ∃ t, exec (.drw x y n) s = .next t ∧
      (∀ px py, t.display.pix px py =
        (s.display.pix px py ^^ (spriteAt (s.getV x) (s.getV y) rows px py).getD false)) ∧
      (spriteCollides (s.getV x) (s.getV y) rows s.display → t.getV vF = 1#8) ∧
      (¬ spriteCollides (s.getV x) (s.getV y) rows s.display → t.getV vF = 0#8) ∧
      t.pc = s.pc + 2#16 ∧ SameV s t [vF] ∧ t.i = s.i ∧ SameMem s t ∧ SameStack s t ∧ SameTimers s t ∧ SameLatch s t

/-- R127, R177: a DRW whose sprite runs past 0xFFF raises AddressFault with the lowest offending address, and VF, the display and the
dirty range are untouched.
It is the spec's decisions D2, D3, D9 (log entry 13). -/
def Obligations.DrawPastMemoryEndFaults : Prop :=
  ∀ (x y : Reg) (n : Nibble) (s : State), n.toNat ≠ 0 → 0x1000 < s.i.toNat + n.toNat →
    exec (.drw x y n) s =
      .next { s with fault := .addressFault (if s.i.toNat > 0xFFF then s.i.toNat else 0x1000) .read s.pc }

/-- R127 point c, R122, R125: after DRW the dirty range is the smallest interval that holds the words of the sprite's whole box and the
range pending before; with n = 0 it is as it was. That zero source bits widen it is the spec's decision D20. -/
def Obligations.DrawDirtiesTheBox : Prop :=
  ∀ (x y : Reg) (n : Nibble) (s : State) (rows : List Byte),
    rows = (List.range n.toNat).map (fun r => s.mem.read (s.i.toNat + r)) →
    (n.toNat = 0 ∨ s.i.toNat + n.toNat ≤ 0x1000) →
    ∃ t, exec (.drw x y n) s = .next t ∧
      (n.toNat = 0 → t.display = s.display) ∧
      (n.toNat ≠ 0 → t.display.dirty = true ∧
        (∀ px py, spriteAt (s.getV x) (s.getV y) rows px py ≠ none →
          t.display.dmin ≤ wordIndex px py ∧ wordIndex px py ≤ t.display.dmax) ∧
        (s.display.dirty = true → t.display.dmin ≤ s.display.dmin ∧ s.display.dmax ≤ t.display.dmax) ∧
        ((s.display.dirty = true ∧ t.display.dmin = s.display.dmin) ∨
          ∃ px py, spriteAt (s.getV x) (s.getV y) rows px py ≠ none ∧ wordIndex px py = t.display.dmin) ∧
        ((s.display.dirty = true ∧ t.display.dmax = s.display.dmax) ∨
          ∃ px py, spriteAt (s.getV x) (s.getV y) rows px py ≠ none ∧ wordIndex px py = t.display.dmax))

/-- R127: drawing the same sprite twice at the same place restores every pixel; the second draw sets VF = 1 if the sprite has a 1 bit
and the first draw did not collide, and VF = 0 if the sprite has no 1 bit. R127's corner sentence has no such condition on the first
draw; its Operation needs one (log entry 19). x and y are not F, since the first draw writes VF. -/
def Obligations.DrawingTwiceRestoresDisplay : Prop :=
  ∀ (x y : Reg) (n : Nibble) (s t u : State), x ≠ vF → y ≠ vF → (n.toNat = 0 ∨ s.i.toNat + n.toNat ≤ 0x1000) →
    exec (.drw x y n) s = .next t → exec (.drw x y n) t = .next u →
    (∀ px py, u.display.pix px py = s.display.pix px py) ∧
    ((∃ r, r < n.toNat ∧ s.mem.read (s.i.toNat + r) ≠ 0#8) → t.getV vF = 0#8 → u.getV vF = 1#8) ∧
    ((∀ r, r < n.toNat → s.mem.read (s.i.toNat + r) = 0#8) → u.getV vF = 0#8)

/-- R124: Pull answers the byte offset and the inclusive slice of words of a pending range and leaves the buffer clean, or nothing;
a second Pull right after answers nothing; no pixel changes, and only `dirty` does (R180).
That dmin and dmax, which then mean nothing, stay as they were is the model's choice (log entry 8). -/
def Obligations.PullDrainsDirtyRange : Prop :=
  ∀ s : State,
    (s.display.dirty = false → hostPull s = (none, s)) ∧
    (s.display.dirty = true → s.display.dmin ≤ s.display.dmax →
      ∃ ws, hostPull s = (some (s.display.dmin.val * 4, ws), { s with display := { s.display with dirty := false } }) ∧
        ws.length = s.display.dmax.val - s.display.dmin.val + 1 ∧
        ∀ k : Fin 64, s.display.dmin ≤ k → k ≤ s.display.dmax → ws[k.val - s.display.dmin.val]? = some s.display.words[k]) ∧
    (hostPull (hostPull s).2).1 = none

/-! ## Keypad -/

/-- R141: SKP Vx skips exactly when the key numbered by the whole byte Vx is pressed; above 15 it raises KeyIndexFault and nothing else
changes.
The fault is the spec's decision D22 (log entry 13). -/
def Obligations.SkipIfKeyPressed : Prop :=
  ∀ (x : Reg) (s : State),
    decodeWord (0xE#4 ++ (x ++ 0x9E#8)) = some (.skp x) ∧
    (∀ k : Fin 16, (s.getV x).toNat = k.val →
      ∃ t, exec (.skp x) s = .next t ∧ t.pc = s.pc + (if s.input.key[k] then 4#16 else 2#16) ∧ SameButPc s t) ∧
    (15 < (s.getV x).toNat → exec (.skp x) s = .next { s with fault := .keyIndexFault (s.getV x) s.pc })

/-- R142: SKNP Vx skips exactly when the key is not pressed; above 15 it raises KeyIndexFault and nothing else changes.
The fault is the spec's decision D22 (log entry 13). -/
def Obligations.SkipIfKeyNotPressed : Prop :=
  ∀ (x : Reg) (s : State),
    decodeWord (0xE#4 ++ (x ++ 0xA1#8)) = some (.sknp x) ∧
    (∀ k : Fin 16, (s.getV x).toNat = k.val →
      ∃ t, exec (.sknp x) s = .next t ∧ t.pc = s.pc + (if s.input.key[k] then 2#16 else 4#16) ∧ SameButPc s t) ∧
    (15 < (s.getV x).toNat → exec (.sknp x) s = .next { s with fault := .keyIndexFault (s.getV x) s.pc })

/-- R143: LD Vx, K loads the least pressed key and advances; with no key pressed it changes nothing, PC included. -/
def Obligations.KeyWaitLatchesLowestKey : Prop :=
  ∀ (x : Reg) (s : State),
    decodeWord (0xF#4 ++ (x ++ 0x0A#8)) = some (.ldVxK x) ∧
    (∀ k : Fin 16, s.input.key[k] = true → (∀ j : Fin 16, j < k → s.input.key[j] = false) →
      ∃ t, exec (.ldVxK x) s = .next t ∧ (t.getV x).toNat = k.val ∧ t.pc = s.pc + 2#16 ∧ SameV s t [x] ∧ SameBeyondV s t) ∧
    ((∀ j : Fin 16, s.input.key[j] = false) → exec (.ldVxK x) s = .next s)

/-- R143, R75 (D33): a whole step at a key-wait with no key pressed leaves PC and the V registers and still ticks the timers.
The tick is the spec's decision D33 (log entry 13). -/
def Obligations.WaitingStepTicksTimers : Prop :=
  ∀ (x : Reg) (s : State), s.fault = .none → s.pc.toNat ≤ 0xFFE →
    s.mem.read s.pc.toNat ++ s.mem.read (s.pc.toNat + 1) = 0xF#4 ++ (x ++ 0x0A#8) →
    (∀ j : Fin 16, s.input.key[j] = false) →
    ∃ t, step s = .next t ∧ t.pc = s.pc ∧ t.v = s.v ∧ t.dt.toNat = s.dt.toNat - 1 ∧ t.st.toNat = s.st.toNat - 1 ∧ t.fault = .none

/-! ## Index, timers, font, BCD, block transfers -/

/-- R150, R154: LD I, addr writes zext_16(addr); ADD I, Vx writes I + Vx modulo 2^16; no flag, not even on a wrap. -/
def Obligations.IndexRegisterIsWritten : Prop :=
  ∀ (addr : Addr12) (x : Reg) (s : State),
    (decodeWord (0xA#4 ++ addr) = some (.ldI addr) ∧ decodeWord (0xF#4 ++ (x ++ 0x1E#8)) = some (.addI x)) ∧
    (∃ t, exec (.ldI addr) s = .next t ∧ t.i.toNat = addr.toNat ∧ t.pc = s.pc + 2#16 ∧ SameV s t [] ∧ SameMem s t ∧
      SameStack s t ∧ SameTimers s t ∧ t.display = s.display ∧ SameLatch s t) ∧
    (∃ t, exec (.addI x) s = .next t ∧ t.i.toNat = (s.i.toNat + (s.getV x).toNat) % 65536 ∧ t.pc = s.pc + 2#16 ∧ SameV s t [] ∧
      SameMem s t ∧ SameStack s t ∧ SameTimers s t ∧ t.display = s.display ∧ SameLatch s t)

/-- R155, R47: LD F, Vx points I at 0x050 + 5 * Vx, for every Vx. That Vx > 15 is not masked is the spec's decision D23,
FONT_DIGIT_POLICY (log entry 9). -/
def Obligations.FontPointerIsUnmasked : Prop :=
  ∀ (x : Reg) (s : State),
    decodeWord (0xF#4 ++ (x ++ 0x29#8)) = some (.ldF x) ∧
    ∃ t, exec (.ldF x) s = .next t ∧ t.i.toNat = 0x050 + 5 * (s.getV x).toNat ∧ t.pc = s.pc + 2#16 ∧ SameV s t [] ∧
      SameMem s t ∧ SameStack s t ∧ SameTimers s t ∧ t.display = s.display ∧ SameLatch s t

/-- R151: LD Vx, DT reads DT as it was at the start of the step; the tick that follows takes one from DT, not from Vx. -/
def Obligations.DelayTimerIsReadBeforeTick : Prop :=
  ∀ (x : Reg) (s : State),
    decodeWord (0xF#4 ++ (x ++ 0x07#8)) = some (.ldVxDt x) ∧
    (∃ t, exec (.ldVxDt x) s = .next t ∧ t.getV x = s.dt ∧ t.pc = s.pc + 2#16 ∧ SameV s t [x] ∧ SameBeyondV s t) ∧
    (s.fault = .none → s.pc.toNat ≤ 0xFFE →
      s.mem.read s.pc.toNat ++ s.mem.read (s.pc.toNat + 1) = 0xF#4 ++ (x ++ 0x07#8) →
      ∃ t, step s = .next t ∧ t.getV x = s.dt ∧ t.dt.toNat = s.dt.toNat - 1)

/-- R152, R153: LD DT, Vx and LD ST, Vx write the timer, and the same step's tick leaves Vx - 1, or 0 if Vx = 0; so after LD ST with
Vx = 1 the beep is off. -/
def Obligations.TimersAreLoadedThenTicked : Prop :=
  ∀ (x : Reg) (s : State),
    (decodeWord (0xF#4 ++ (x ++ 0x15#8)) = some (.ldDtVx x) ∧ decodeWord (0xF#4 ++ (x ++ 0x18#8)) = some (.ldStVx x)) ∧
    (∃ t, exec (.ldDtVx x) s = .next t ∧ t.dt = s.getV x ∧ t.st = s.st ∧ t.pc = s.pc + 2#16 ∧ SameV s t [] ∧ t.i = s.i ∧
      SameMem s t ∧ SameStack s t ∧ t.display = s.display ∧ SameLatch s t) ∧
    (∃ t, exec (.ldStVx x) s = .next t ∧ t.st = s.getV x ∧ t.dt = s.dt ∧ t.pc = s.pc + 2#16 ∧ SameV s t [] ∧ t.i = s.i ∧
      SameMem s t ∧ SameStack s t ∧ t.display = s.display ∧ SameLatch s t) ∧
    (s.fault = .none → s.pc.toNat ≤ 0xFFE →
      s.mem.read s.pc.toNat ++ s.mem.read (s.pc.toNat + 1) = 0xF#4 ++ (x ++ 0x15#8) →
      ∃ t, step s = .next t ∧ t.dt.toNat = (s.getV x).toNat - 1) ∧
    (s.fault = .none → s.pc.toNat ≤ 0xFFE →
      s.mem.read s.pc.toNat ++ s.mem.read (s.pc.toNat + 1) = 0xF#4 ++ (x ++ 0x18#8) →
      ∃ t, step s = .next t ∧ t.st.toNat = (s.getV x).toNat - 1 ∧ (t.beep = true ↔ 2 ≤ (s.getV x).toNat))

/-- R156: LD B, Vx stores the hundreds, tens and ones digits at I, I + 1, I + 2 and nothing else; when I + 2 exceeds 0xFFF it raises
AddressFault with the lowest offending address and no byte is written. Memory is in canonical form (StepKeepsInvariant). -/
def Obligations.BcdStoresThreeDigits : Prop :=
  ∀ (x : Reg) (s : State), s.mem.wf = true →
    decodeWord (0xF#4 ++ (x ++ 0x33#8)) = some (.ldB x) ∧
    (s.i.toNat + 2 ≤ 0xFFF → ∃ t, exec (.ldB x) s = .next t ∧
      (t.mem.read s.i.toNat).toNat = (s.getV x).toNat / 100 ∧
      (t.mem.read (s.i.toNat + 1)).toNat = (s.getV x).toNat / 10 % 10 ∧
      (t.mem.read (s.i.toNat + 2)).toNat = (s.getV x).toNat % 10 ∧
      SameMemOutside s t s.i.toNat 3 ∧ t.pc = s.pc + 2#16 ∧ SameV s t [] ∧ t.i = s.i ∧ SameStack s t ∧ SameTimers s t ∧
      t.display = s.display ∧ SameLatch s t) ∧
    (0xFFF < s.i.toNat + 2 → exec (.ldB x) s =
      .next { s with fault := .addressFault (if s.i.toNat > 0xFFF then s.i.toNat else 0x1000) .write s.pc })

/-- R157: LD [I], Vx stores V0 to Vx at I on, nothing else, and keeps I; when I + x exceeds 0xFFF it raises AddressFault with the
lowest offending address and no byte is written. Memory is in canonical form (StepKeepsInvariant). -/
def Obligations.BlockStoreWritesRegisters : Prop :=
  ∀ (x : Reg) (s : State), s.mem.wf = true →
    decodeWord (0xF#4 ++ (x ++ 0x55#8)) = some (.ldMemVx x) ∧
    (s.i.toNat + x.toNat ≤ 0xFFF → ∃ t, exec (.ldMemVx x) s = .next t ∧
      (∀ r : Reg, r.toNat ≤ x.toNat → t.mem.read (s.i.toNat + r.toNat) = s.getV r) ∧
      SameMemOutside s t s.i.toNat (x.toNat + 1) ∧ t.pc = s.pc + 2#16 ∧ SameV s t [] ∧ t.i = s.i ∧ SameStack s t ∧
      SameTimers s t ∧ t.display = s.display ∧ SameLatch s t) ∧
    (0xFFF < s.i.toNat + x.toNat → exec (.ldMemVx x) s =
      .next { s with fault := .addressFault (if s.i.toNat > 0xFFF then s.i.toNat else 0x1000) .write s.pc })

/-- R158: LD Vx, [I] loads V0 to Vx from I on, no other register, and keeps I; when I + x exceeds 0xFFF it raises AddressFault with the
lowest offending address and no register changes. -/
def Obligations.BlockLoadReadsRegisters : Prop :=
  ∀ (x : Reg) (s : State),
    decodeWord (0xF#4 ++ (x ++ 0x65#8)) = some (.ldVxMem x) ∧
    (s.i.toNat + x.toNat ≤ 0xFFF → ∃ t, exec (.ldVxMem x) s = .next t ∧
      (∀ r : Reg, t.getV r = if r.toNat ≤ x.toNat then s.mem.read (s.i.toNat + r.toNat) else s.getV r) ∧
      t.pc = s.pc + 2#16 ∧ SameBeyondV s t) ∧
    (0xFFF < s.i.toNat + x.toNat → exec (.ldVxMem x) s =
      .next { s with fault := .addressFault (if s.i.toNat > 0xFFF then s.i.toNat else 0x1000) .read s.pc })

/-- R157, R158: what LD [I], Vx stored, LD Vx, [I] loads back, whatever V held in between. -/
def Obligations.BlockLoadUndoesBlockStore : Prop :=
  ∀ (x : Reg) (s t u : State), s.mem.wf = true → s.i.toNat + x.toNat ≤ 0xFFF → exec (.ldMemVx x) s = .next t →
    u.i = t.i → u.mem = t.mem →
    ∃ w, exec (.ldVxMem x) u = .next w ∧ ∀ r : Reg, r.toNat ≤ x.toNat → w.getV r = s.getV r

/-! ## Memory and the host's operations -/

/-- R34, R36: on a memory in canonical form, a byte written is read back, every other byte is as before, and the form is kept; a write of
what is there changes nothing. -/
def Obligations.MemoryReadsWhatWasWritten : Prop :=
  ∀ (m : Memory) (a : Nat) (b : Byte), m.wf = true → a < 4096 →
    (m.write a b).wf = true ∧ (∀ c, (m.write a b).read c = if c = a then b else m.read c) ∧ m.write a (m.read a) = m

/-- R42, R32, R33: a word stored as two bytes at PC and PC + 1 is what the next fetch reads, at any parity of PC. -/
def Obligations.StoredWordIsFetched : Prop :=
  ∀ (s : State) (w : Word), s.mem.wf = true → s.pc.toNat ≤ 0xFFE →
    ∃ t, s.writeBlock s.pc.toNat [hiByte w, loByte w] = .ok t ∧ t.fetchWord = .ok w

/-- R190, R193, R26: after Reset of an image that fits, from any state: registers, timers, SP zero, PC = 0x200, display dark and clean,
no fault, no beep, the image byte for byte at 0x200, the font below it, and memory in canonical form. The font bytes are the
standard FONT_TABLE (log entry 5); the values the spec leaves open are not stated. -/
def Obligations.ResetGivesInitialState : Prop :=
  ∀ (rom : List Byte) (s : State), rom.length ≤ 3584 →
    (∀ r, (hostReset rom s).getV r = 0#8) ∧ (hostReset rom s).i = 0#16 ∧ (hostReset rom s).pc = 0x200#16 ∧
    (hostReset rom s).sp.val = 0 ∧ (hostReset rom s).dt = 0#8 ∧ (hostReset rom s).st = 0#8 ∧
    (∀ x y, (hostReset rom s).display.pix x y = false) ∧ (hostReset rom s).display.dirty = false ∧
    (hostReset rom s).fault = .none ∧ (hostReset rom s).beep = false ∧
    (∀ k (h : k < rom.length), (hostReset rom s).mem.read (0x200 + k) = rom[k]) ∧
    (∀ k, k < 80 → (hostReset rom s).mem.read (0x050 + k) = fontTable.getD k 0#8) ∧
    (hostReset rom s).inv = true

/-- R186: Reset of an image longer than 3584 bytes leaves the machine halted with code 6 and the length.
It is the spec's decision D27 (log entry 13); the rest of the state is not stated (log entry 14). -/
def Obligations.OversizedRomHalts : Prop :=
  ∀ (rom : List Byte) (s : State), 3584 < rom.length →
    (hostReset rom s).fault = .romSizeFault rom.length ∧ (hostReset rom s).fault.code = 6 ∧
    step (hostReset rom s) = .next { hostReset rom s with
      inputs := (hostReset rom s).inputs.tail, stepNo := (hostReset rom s).stepNo + 1 }
end

