-- ==== Sys2Proof/Laws/Display.lean ====
section
/-! SUPPORT. The small lemmas of the display buffer: bits of a word, the place of a pixel, the fields after each operation. -/

namespace Sys2Proof.Machine

/-- A bit of a word after another bit was set. -/
theorem getLsbD_setBit (w : DispWord) (p q : Nat) (b : Bool) (hq : q < 32) :
    (setBit w p b).getLsbD q = if q = p then b else w.getLsbD q := by
  unfold setBit
  by_cases h : q = p
  · subst h
    cases b <;> simp [hq]
  · cases b <;> simp [h, hq] <;> intros <;> omega

theorem bitPos_lt (x : Fin 64) : bitPos x < 32 := by unfold bitPos; omega

/-- A pixel is known by its word and its bit. -/
theorem pixel_place_inj {x x' : Fin 64} {y y' : Fin 32} :
    wordIndex x y = wordIndex x' y' ∧ bitPos x = bitPos x' ↔ x = x' ∧ y = y' := by
  simp only [wordIndex, bitPos, Fin.ext_iff]
  omega

@[simp] theorem Display.touch_words (d : Display) (w : Fin 64) : (d.touch w).words = d.words := by
  unfold Display.touch; split <;> rfl

@[simp] theorem Display.touch_dirty (d : Display) (w : Fin 64) : (d.touch w).dirty = true := by
  unfold Display.touch
  split
  · assumption
  · rfl

theorem Display.touch_dmin (d : Display) (w : Fin 64) : (d.touch w).dmin = if d.dirty then min d.dmin w else w := by
  unfold Display.touch; split <;> simp_all

theorem Display.touch_dmax (d : Display) (w : Fin 64) : (d.touch w).dmax = if d.dirty then max d.dmax w else w := by
  unfold Display.touch; split <;> simp_all

@[simp] theorem Display.setPix_dirty (d : Display) (x : Fin 64) (y : Fin 32) (b : Bool) : (d.setPix x y b).dirty = true := by
  simp [Display.setPix]

@[simp] theorem Display.setPix_words (d : Display) (x : Fin 64) (y : Fin 32) (b : Bool) :
    (d.setPix x y b).words = d.words.set (wordIndex x y) (setBit d.words[wordIndex x y] (bitPos x) b) := by
  simp [Display.setPix]

theorem Display.setPix_dmin (d : Display) (x : Fin 64) (y : Fin 32) (b : Bool) :
    (d.setPix x y b).dmin = if d.dirty then min d.dmin (wordIndex x y) else wordIndex x y := by
  simp [Display.setPix, Display.touch_dmin]

theorem Display.setPix_dmax (d : Display) (x : Fin 64) (y : Fin 32) (b : Bool) :
    (d.setPix x y b).dmax = if d.dirty then max d.dmax (wordIndex x y) else wordIndex x y := by
  simp [Display.setPix, Display.touch_dmax]

@[simp] theorem Display.clear_dirty (b : Bool) : (Display.clear b).dirty = true := rfl
@[simp] theorem Display.clear_dmin (b : Bool) : (Display.clear b).dmin = 0 := rfl
@[simp] theorem Display.clear_dmax (b : Bool) : (Display.clear b).dmax = 63 := rfl

theorem drawRows_nil (x0 y0 : Byte) (r : Nat) (g : Drawing) : drawRows x0 y0 r [] g = g := rfl

theorem drawRows_cons (x0 y0 : Byte) (r : Nat) (row : Byte) (rows : List Byte) (g : Drawing) :
    drawRows x0 y0 r (row :: rows) g = drawRows x0 y0 (r + 1) rows (drawByte x0 (drawRow y0 r) row g) := rfl

end Sys2Proof.Machine
end

