-- ==== Sys2Proof/Laws/Encoding.lean ====
section
/-! SUPPORT. The fields of the words the encoder builds, and bytes against words. -/

namespace Sys2Proof

/-- A slice of a concatenation, as numbers. -/
theorem append_toNat {m n : Nat} (a : BitVec m) (b : BitVec n) : (a ++ b).toNat = a.toNat * 2 ^ n + b.toNat := by
  rw [BitVec.toNat_append, Nat.shiftLeft_eq, Nat.mul_comm, Nat.two_pow_add_eq_or_of_lt b.isLt]

theorem slice_toNat (w : Word) (start len : Nat) : (w.extractLsb' start len).toNat = w.toNat / 2 ^ start % 2 ^ len := by
  rw [BitVec.extractLsb'_toNat, Nat.shiftRight_eq_div_pow]

theorem wordA_toNat (op : BitVec 4) (addr : Addr12) : (wordA op addr).toNat = op.toNat * 4096 + addr.toNat :=
  append_toNat op addr

theorem wordXK_toNat (op : BitVec 4) (x : Reg) (kk : Byte) :
    (wordXK op x kk).toNat = op.toNat * 4096 + (x.toNat * 256 + kk.toNat) := by
  unfold wordXK
  rw [append_toNat, append_toNat]; norm_num

theorem wordXYN_toNat (op : BitVec 4) (x y : Reg) (n : BitVec 4) :
    (wordXYN op x y n).toNat = op.toNat * 4096 + (x.toNat * 256 + (y.toNat * 16 + n.toNat)) := by
  unfold wordXYN
  rw [append_toNat, append_toNat, append_toNat]; norm_num

@[simp] theorem opField_wordA (op : BitVec 4) (addr : Addr12) : opField (wordA op addr) = op := by
  apply BitVec.eq_of_toNat_eq
  rw [opField, slice_toNat, wordA_toNat]
  have := op.isLt; have := addr.isLt; omega

@[simp] theorem addrField_wordA (op : BitVec 4) (addr : Addr12) : addrField (wordA op addr) = addr := by
  apply BitVec.eq_of_toNat_eq
  rw [addrField, slice_toNat, wordA_toNat]
  have := op.isLt; have := addr.isLt; omega

@[simp] theorem opField_wordXK (op : BitVec 4) (x : Reg) (kk : Byte) : opField (wordXK op x kk) = op := by
  apply BitVec.eq_of_toNat_eq
  rw [opField, slice_toNat, wordXK_toNat]
  have := op.isLt; have := x.isLt; have := kk.isLt; omega

@[simp] theorem xField_wordXK (op : BitVec 4) (x : Reg) (kk : Byte) : xField (wordXK op x kk) = x := by
  apply BitVec.eq_of_toNat_eq
  rw [xField, slice_toNat, wordXK_toNat]
  have := op.isLt; have := x.isLt; have := kk.isLt; omega

@[simp] theorem kkField_wordXK (op : BitVec 4) (x : Reg) (kk : Byte) : kkField (wordXK op x kk) = kk := by
  apply BitVec.eq_of_toNat_eq
  rw [kkField, slice_toNat, wordXK_toNat]
  have := op.isLt; have := x.isLt; have := kk.isLt; omega

@[simp] theorem opField_wordXYN (op : BitVec 4) (x y : Reg) (n : BitVec 4) : opField (wordXYN op x y n) = op := by
  apply BitVec.eq_of_toNat_eq
  rw [opField, slice_toNat, wordXYN_toNat]
  have := op.isLt; have := x.isLt; have := y.isLt; have := n.isLt; omega

@[simp] theorem xField_wordXYN (op : BitVec 4) (x y : Reg) (n : BitVec 4) : xField (wordXYN op x y n) = x := by
  apply BitVec.eq_of_toNat_eq
  rw [xField, slice_toNat, wordXYN_toNat]
  have := op.isLt; have := x.isLt; have := y.isLt; have := n.isLt; omega

@[simp] theorem yField_wordXYN (op : BitVec 4) (x y : Reg) (n : BitVec 4) : yField (wordXYN op x y n) = y := by
  apply BitVec.eq_of_toNat_eq
  rw [yField, slice_toNat, wordXYN_toNat]
  have := op.isLt; have := x.isLt; have := y.isLt; have := n.isLt; omega

@[simp] theorem nField_wordXYN (op : BitVec 4) (x y : Reg) (n : BitVec 4) : nField (wordXYN op x y n) = n := by
  apply BitVec.eq_of_toNat_eq
  rw [nField, slice_toNat, wordXYN_toNat]
  have := op.isLt; have := x.isLt; have := y.isLt; have := n.isLt; omega

theorem wordOfBytes_toNat (hi lo : Byte) : (wordOfBytes hi lo).toNat = hi.toNat * 256 + lo.toNat := append_toNat hi lo

/-- The two bytes of a word give the word back. -/
@[simp] theorem wordOfBytes_hi_lo (w : Word) : wordOfBytes (hiByte w) (loByte w) = w := by
  apply BitVec.eq_of_toNat_eq
  rw [wordOfBytes_toNat, hiByte, loByte, slice_toNat, slice_toNat]
  have := w.isLt; omega

@[simp] theorem hiByte_wordOfBytes (hi lo : Byte) : hiByte (wordOfBytes hi lo) = hi := by
  apply BitVec.eq_of_toNat_eq
  rw [hiByte, slice_toNat, wordOfBytes_toNat]
  have := hi.isLt; have := lo.isLt; omega

@[simp] theorem loByte_wordOfBytes (hi lo : Byte) : loByte (wordOfBytes hi lo) = lo := by
  apply BitVec.eq_of_toNat_eq
  rw [loByte, slice_toNat, wordOfBytes_toNat]
  have := hi.isLt; have := lo.isLt; omega

/-- A word is built again from its fields, format A. -/
theorem wordA_fields (w : Word) : wordA (opField w) (addrField w) = w := by
  apply BitVec.eq_of_toNat_eq
  rw [wordA_toNat, opField, addrField, slice_toNat, slice_toNat]
  have := w.isLt; omega

/-- A word is built again from its fields, format XK. -/
theorem wordXK_fields (w : Word) : wordXK (opField w) (xField w) (kkField w) = w := by
  apply BitVec.eq_of_toNat_eq
  rw [wordXK_toNat, opField, xField, kkField, slice_toNat, slice_toNat, slice_toNat]
  have := w.isLt; omega

/-- A word is built again from its fields, formats XY and XYN. -/
theorem wordXYN_fields (w : Word) : wordXYN (opField w) (xField w) (yField w) (nField w) = w := by
  apply BitVec.eq_of_toNat_eq
  rw [wordXYN_toNat, opField, xField, yField, nField, slice_toNat, slice_toNat, slice_toNat, slice_toNat]
  have := w.isLt; omega

end Sys2Proof
end

