-- ==== Sys2Proof/Laws/Memory.lean ====
section
/-! SUPPORT. The laws of memory: a read after a write, and that every write keeps the canonical form. -/

namespace Sys2Proof.Machine

@[simp] theorem Memory.read_nil (a : Nat) : Memory.read [] a = unlistedByte a := rfl

/-- Byte `k` of the font, where memory does not list it. -/
theorem unlistedByte_font (k : Nat) : unlistedByte (0x050 + k) = fontTable.getD k 0#8 := by
  rw [unlistedByte, if_pos (show fontBase ≤ 0x050 + k from Nat.le_add_right _ _),
    show 0x050 + k - fontBase = k from Nat.add_sub_cancel_left ..]
  rfl

theorem Memory.read_cons (c : Nat) (d : Byte) (rest : Memory) (a : Nat) :
    Memory.read ((c, d) :: rest) a = if a = c then d else Memory.read rest a := rfl

/-- Below the first listed address, memory reads as unlisted. -/
theorem Memory.read_of_lt {m : Memory} : ∀ {lo a : Nat}, Memory.wfFrom lo m = true → a < lo → m.read a = unlistedByte a := by
  induction m with
  | nil => intro lo a _ _; rfl
  | cons cell rest ih =>
    obtain ⟨c, d⟩ := cell
    intro lo a h ha
    simp only [Memory.wfFrom, Bool.and_eq_true, decide_eq_true_eq] at h
    rw [Memory.read_cons, if_neg (by omega)]
    exact ih h.2 (by omega)

/-- The canonical form from `lo` on is one from any lower address on. -/
theorem Memory.wfFrom_mono {m : Memory} {lo lo' : Nat} (h : Memory.wfFrom lo m = true) (hl : lo' ≤ lo) :
    Memory.wfFrom lo' m = true := by
  cases m with
  | nil => rfl
  | cons cell rest =>
    obtain ⟨c, d⟩ := cell
    simp only [Memory.wfFrom, Bool.and_eq_true, decide_eq_true_eq] at h ⊢
    exact ⟨⟨⟨by omega, h.1.1.2⟩, h.1.2⟩, h.2⟩

theorem Memory.wfFrom_consCell {m : Memory} {lo a : Nat} {b : Byte} (hm : Memory.wfFrom (a + 1) m = true) (hlo : lo ≤ a)
    (ha : a < Config.memSize) : Memory.wfFrom lo (Memory.cons a b m) = true := by
  unfold Memory.cons
  split
  · exact Memory.wfFrom_mono hm (by omega)
  · rename_i hb
    simp only [Memory.wfFrom, Bool.and_eq_true, decide_eq_true_eq]
    exact ⟨⟨⟨hlo, ha⟩, hb⟩, hm⟩

theorem Memory.wfFrom_write {m : Memory} : ∀ {lo a : Nat} (b : Byte), Memory.wfFrom lo m = true → lo ≤ a → a < Config.memSize →
    Memory.wfFrom lo (m.write a b) = true := by
  induction m with
  | nil => intro lo a b _ hlo ha; exact Memory.wfFrom_consCell (by rfl) hlo ha
  | cons cell rest ih =>
    obtain ⟨c, d⟩ := cell
    intro lo a b h hlo ha
    have h' := h
    simp only [Memory.wfFrom, Bool.and_eq_true, decide_eq_true_eq] at h
    simp only [Memory.write]
    split
    · refine Memory.wfFrom_consCell ?_ hlo ha
      simp only [Memory.wfFrom, Bool.and_eq_true, decide_eq_true_eq]
      exact ⟨⟨⟨by omega, h.1.1.2⟩, h.1.2⟩, h.2⟩
    · split
      · rename_i _ hac
        subst hac
        exact Memory.wfFrom_consCell h.2 hlo ha
      · simp only [Memory.wfFrom, Bool.and_eq_true, decide_eq_true_eq]
        exact ⟨h.1, ih b h.2 (by omega) ha⟩

/-- A write inside the address space keeps the canonical form. -/
theorem Memory.wf_write {m : Memory} {a : Nat} (b : Byte) (h : m.wf = true) (ha : a < 0x1000) :
    (m.write a b).wf = true := Memory.wfFrom_write b h (Nat.zero_le a) ha

/-- Writing bytes inside the address space keeps the canonical form. -/
theorem Memory.wf_writeBytes {bs : List Byte} : ∀ {m : Memory} {a : Nat}, m.wf = true → a + bs.length ≤ 0x1000 →
    (m.writeBytes a bs).wf = true := by
  induction bs with
  | nil => intro m a h _; exact h
  | cons b bs ih =>
    intro m a h ha
    simp only [List.length_cons] at ha
    exact ih (Memory.wf_write b h (by omega)) (by omega)

theorem Memory.read_consCell {m : Memory} {a : Nat} (b : Byte) (x : Nat) (h : Memory.wfFrom (a + 1) m = true) :
    (Memory.cons a b m).read x = if x = a then b else m.read x := by
  unfold Memory.cons
  split
  · rename_i hb
    split
    · rename_i hx
      rw [hx, hb]
      exact Memory.read_of_lt h (by omega)
    · rfl
  · rfl

theorem Memory.read_writeFrom {m : Memory} : ∀ {lo a : Nat} (b : Byte) (x : Nat), Memory.wfFrom lo m = true →
    (m.write a b).read x = if x = a then b else m.read x := by
  induction m with
  | nil => intro lo a b x _; exact Memory.read_consCell b x (by rfl)
  | cons cell rest ih =>
    obtain ⟨c, d⟩ := cell
    intro lo a b x h
    have h' := h
    simp only [Memory.wfFrom, Bool.and_eq_true, decide_eq_true_eq] at h
    simp only [Memory.write]
    split
    · rename_i hac
      refine Memory.read_consCell b x ?_
      simp only [Memory.wfFrom, Bool.and_eq_true, decide_eq_true_eq]
      exact ⟨⟨⟨by omega, h.1.1.2⟩, h.1.2⟩, h.2⟩
    · split
      · rename_i _ hac
        subst hac
        rw [Memory.read_consCell b x h.2, Memory.read_cons]
        split <;> simp_all
      · rename_i _ hne
        rw [Memory.read_cons, Memory.read_cons, ih b x h.2]
        by_cases hxc : x = c
        · have : x ≠ a := by omega
          simp [hxc]; omega
        · simp [hxc]

/-- A read after a write, at every address, of a memory in canonical form. -/
theorem Memory.read_write {m : Memory} (h : m.wf = true) (a : Nat) (b : Byte) (x : Nat) :
    (m.write a b).read x = if x = a then b else m.read x := Memory.read_writeFrom b x h

/-- A read after a write of several bytes. -/
theorem Memory.read_writeBytes {bs : List Byte} : ∀ {m : Memory} {a : Nat} (x : Nat), m.wf = true →
    a + bs.length ≤ 0x1000 →
    (m.writeBytes a bs).read x = if h : a ≤ x ∧ x < a + bs.length then bs[x - a]'(by omega) else m.read x := by
  induction bs with
  | nil => intro m a x _ _; rw [dif_neg (by simp)]; rfl
  | cons b bs ih =>
    intro m a x h ha
    simp only [List.length_cons] at ha
    rw [Memory.writeBytes, ih x (Memory.wf_write b h (by omega)) (by omega), Memory.read_write h]
    by_cases h1 : x = a
    · subst h1
      rw [dif_neg (by omega), dif_pos (by simp)]
      simp
    · by_cases h2 : a ≤ x ∧ x < a + (b :: bs).length
      · have hk : x - a = (x - (a + 1)) + 1 := by omega
        simp only [List.length_cons] at h2
        rw [dif_pos (by omega), dif_pos (by simp; omega)]
        simp [hk]
      · simp only [List.length_cons] at h2
        rw [dif_neg (by omega), dif_neg (by simp; omega), if_neg h1]

/-- Memories in canonical form that read alike are equal data. -/
theorem Memory.ext_from {m : Memory} : ∀ {n : Memory} {lo : Nat}, Memory.wfFrom lo m = true → Memory.wfFrom lo n = true →
    (∀ a, m.read a = n.read a) → m = n := by
  induction m with
  | nil =>
    intro n lo _ hn h
    cases n with
    | nil => rfl
    | cons cell rest =>
      obtain ⟨c, d⟩ := cell
      simp only [Memory.wfFrom, Bool.and_eq_true, decide_eq_true_eq] at hn
      have := h c
      simp only [Memory.read_nil, Memory.read_cons, if_true] at this
      exact absurd this.symm hn.1.2
  | cons cell rest ih =>
    obtain ⟨c, d⟩ := cell
    intro n lo hm hn h
    have hm' := hm
    simp only [Memory.wfFrom, Bool.and_eq_true, decide_eq_true_eq] at hm
    cases n with
    | nil =>
      have := h c
      simp only [Memory.read_nil, Memory.read_cons, if_true] at this
      exact absurd this hm.1.2
    | cons cell' rest' =>
      obtain ⟨c', d'⟩ := cell'
      simp only [Memory.wfFrom, Bool.and_eq_true, decide_eq_true_eq] at hn
      have hc : c = c' := by
        rcases Nat.lt_trichotomy c c' with hlt | heq | hgt
        · exfalso
          have := h c
          rw [Memory.read_cons, if_pos rfl, Memory.read_cons, if_neg (by omega), Memory.read_of_lt hn.2 (by omega)] at this
          exact hm.1.2 this
        · exact heq
        · exfalso
          have := h c'
          rw [Memory.read_cons, if_neg (by omega), Memory.read_of_lt hm.2 (by omega), Memory.read_cons, if_pos rfl] at this
          exact hn.1.2 this.symm
      subst hc
      have hd : d = d' := by simpa [Memory.read_cons] using h c
      subst hd
      have hrest : rest = rest' := by
        refine ih hm.2 hn.2 fun a => ?_
        by_cases ha : a = c
        · subst ha
          rw [Memory.read_of_lt hm.2 (by omega), Memory.read_of_lt hn.2 (by omega)]
        · simpa [Memory.read_cons, ha] using h a
      rw [hrest]

/-- Equal memories are equal data. -/
theorem Memory.ext {m n : Memory} (hm : m.wf = true) (hn : n.wf = true) (h : ∀ a, m.read a = n.read a) : m = n :=
  Memory.ext_from hm hn h

/-- The memory after reset is in canonical form. -/
theorem Memory.wf_reset : State.reset.mem.wf = true := rfl

end Sys2Proof.Machine
end

