-- ==== Sys2Proof/Laws/State.lean ====
section
/-! SUPPORT. The small lemmas of State's updates: one per field per update, and what a register reads as after each. -/

namespace Sys2Proof.Machine

/-! ## setV -/

@[simp] theorem State.setV_i (s : State) (x : Reg) (b : Byte) : (s.setV x b).i = s.i := rfl
@[simp] theorem State.setV_pc (s : State) (x : Reg) (b : Byte) : (s.setV x b).pc = s.pc := rfl
@[simp] theorem State.setV_sp (s : State) (x : Reg) (b : Byte) : (s.setV x b).sp = s.sp := rfl
@[simp] theorem State.setV_stack (s : State) (x : Reg) (b : Byte) : (s.setV x b).stack = s.stack := rfl
@[simp] theorem State.setV_dt (s : State) (x : Reg) (b : Byte) : (s.setV x b).dt = s.dt := rfl
@[simp] theorem State.setV_st (s : State) (x : Reg) (b : Byte) : (s.setV x b).st = s.st := rfl
@[simp] theorem State.setV_mem (s : State) (x : Reg) (b : Byte) : (s.setV x b).mem = s.mem := rfl
@[simp] theorem State.setV_display (s : State) (x : Reg) (b : Byte) : (s.setV x b).display = s.display := rfl
@[simp] theorem State.setV_fault (s : State) (x : Reg) (b : Byte) : (s.setV x b).fault = s.fault := rfl
@[simp] theorem State.setV_inputs (s : State) (x : Reg) (b : Byte) : (s.setV x b).inputs = s.inputs := rfl
@[simp] theorem State.setV_stepNo (s : State) (x : Reg) (b : Byte) : (s.setV x b).stepNo = s.stepNo := rfl

/-- A register reads as what was last written to it. -/
theorem State.getV_setV (s : State) (x r : Reg) (b : Byte) : (s.setV x b).getV r = if r = x then b else s.getV r := by
  have hx : x.toNat = r.toNat ↔ r = x := by rw [eq_comm, BitVec.toNat_inj]
  simp only [State.getV, State.setV, Vector.getElem_set, hx]

@[simp] theorem State.getV_setV_self (s : State) (x : Reg) (b : Byte) : (s.setV x b).getV x = b := by
  simp [State.getV_setV]

theorem State.getV_setV_ne (s : State) {x r : Reg} (b : Byte) (h : r ≠ x) : (s.setV x b).getV r = s.getV r := by
  simp [State.getV_setV, h]

/-- Reading every register alike is the same register file. -/
theorem State.v_ext {s t : State} (h : ∀ r : Reg, t.getV r = s.getV r) : t.v = s.v := by
  apply Vector.ext
  intro k hk
  have h' := h (BitVec.ofNat 4 k)
  simpa [State.getV, Nat.mod_eq_of_lt hk] using h'

/-! ## setFlag -/

@[simp] theorem State.setFlag_i (s : State) (c : Bool) : (s.setFlag c).i = s.i := rfl
@[simp] theorem State.setFlag_pc (s : State) (c : Bool) : (s.setFlag c).pc = s.pc := rfl
@[simp] theorem State.setFlag_sp (s : State) (c : Bool) : (s.setFlag c).sp = s.sp := rfl
@[simp] theorem State.setFlag_stack (s : State) (c : Bool) : (s.setFlag c).stack = s.stack := rfl
@[simp] theorem State.setFlag_dt (s : State) (c : Bool) : (s.setFlag c).dt = s.dt := rfl
@[simp] theorem State.setFlag_st (s : State) (c : Bool) : (s.setFlag c).st = s.st := rfl
@[simp] theorem State.setFlag_mem (s : State) (c : Bool) : (s.setFlag c).mem = s.mem := rfl
@[simp] theorem State.setFlag_display (s : State) (c : Bool) : (s.setFlag c).display = s.display := rfl
@[simp] theorem State.setFlag_fault (s : State) (c : Bool) : (s.setFlag c).fault = s.fault := rfl
@[simp] theorem State.setFlag_inputs (s : State) (c : Bool) : (s.setFlag c).inputs = s.inputs := rfl
@[simp] theorem State.setFlag_stepNo (s : State) (c : Bool) : (s.setFlag c).stepNo = s.stepNo := rfl

theorem State.getV_setFlag (s : State) (c : Bool) (r : Reg) :
    (s.setFlag c).getV r = if r = vF then flagByte c else s.getV r := State.getV_setV s vF r (flagByte c)

/-! ## raise -/

@[simp] theorem State.raise_v (s : State) (f : FaultLatch) : (s.raise f).v = s.v := rfl
@[simp] theorem State.raise_i (s : State) (f : FaultLatch) : (s.raise f).i = s.i := rfl
@[simp] theorem State.raise_pc (s : State) (f : FaultLatch) : (s.raise f).pc = s.pc := rfl
@[simp] theorem State.raise_sp (s : State) (f : FaultLatch) : (s.raise f).sp = s.sp := rfl
@[simp] theorem State.raise_stack (s : State) (f : FaultLatch) : (s.raise f).stack = s.stack := rfl
@[simp] theorem State.raise_dt (s : State) (f : FaultLatch) : (s.raise f).dt = s.dt := rfl
@[simp] theorem State.raise_st (s : State) (f : FaultLatch) : (s.raise f).st = s.st := rfl
@[simp] theorem State.raise_mem (s : State) (f : FaultLatch) : (s.raise f).mem = s.mem := rfl
@[simp] theorem State.raise_display (s : State) (f : FaultLatch) : (s.raise f).display = s.display := rfl
@[simp] theorem State.raise_fault (s : State) (f : FaultLatch) : (s.raise f).fault = f := rfl
@[simp] theorem State.raise_inputs (s : State) (f : FaultLatch) : (s.raise f).inputs = s.inputs := rfl
@[simp] theorem State.raise_stepNo (s : State) (f : FaultLatch) : (s.raise f).stepNo = s.stepNo := rfl
@[simp] theorem State.raise_getV (s : State) (f : FaultLatch) (r : Reg) : (s.raise f).getV r = s.getV r := rfl

/-! ## finish -/

@[simp] theorem State.finish_v (s : State) (o : PcOutcome) : (s.finish o).v = s.v := rfl
@[simp] theorem State.finish_i (s : State) (o : PcOutcome) : (s.finish o).i = s.i := rfl
@[simp] theorem State.finish_pc (s : State) (o : PcOutcome) : (s.finish o).pc = nextPc s.pc o := rfl
@[simp] theorem State.finish_sp (s : State) (o : PcOutcome) : (s.finish o).sp = s.sp := rfl
@[simp] theorem State.finish_stack (s : State) (o : PcOutcome) : (s.finish o).stack = s.stack := rfl
@[simp] theorem State.finish_dt (s : State) (o : PcOutcome) : (s.finish o).dt = s.dt := rfl
@[simp] theorem State.finish_st (s : State) (o : PcOutcome) : (s.finish o).st = s.st := rfl
@[simp] theorem State.finish_mem (s : State) (o : PcOutcome) : (s.finish o).mem = s.mem := rfl
@[simp] theorem State.finish_display (s : State) (o : PcOutcome) : (s.finish o).display = s.display := rfl
@[simp] theorem State.finish_fault (s : State) (o : PcOutcome) : (s.finish o).fault = s.fault := rfl
@[simp] theorem State.finish_inputs (s : State) (o : PcOutcome) : (s.finish o).inputs = s.inputs := rfl
@[simp] theorem State.finish_stepNo (s : State) (o : PcOutcome) : (s.finish o).stepNo = s.stepNo := rfl
@[simp] theorem State.finish_getV (s : State) (o : PcOutcome) (r : Reg) : (s.finish o).getV r = s.getV r := rfl

/-- `stay` changes nothing (R74). -/
@[simp] theorem State.finish_stay (s : State) : s.finish .stay = s := rfl

@[simp] theorem nextPc_advance (pc : Word) : nextPc pc .advance = pc + 2#16 := rfl
@[simp] theorem nextPc_skip (pc : Word) : nextPc pc .skip = pc + 4#16 := rfl
@[simp] theorem nextPc_jump (pc t : Word) : nextPc pc (.jump t) = t := rfl
@[simp] theorem nextPc_stay (pc : Word) : nextPc pc .stay = pc := rfl

/-! ## skipIf -/

@[simp] theorem State.skipIf_v (s : State) (c : Bool) : (s.skipIf c).v = s.v := rfl
@[simp] theorem State.skipIf_i (s : State) (c : Bool) : (s.skipIf c).i = s.i := rfl
@[simp] theorem State.skipIf_sp (s : State) (c : Bool) : (s.skipIf c).sp = s.sp := rfl
@[simp] theorem State.skipIf_stack (s : State) (c : Bool) : (s.skipIf c).stack = s.stack := rfl
@[simp] theorem State.skipIf_dt (s : State) (c : Bool) : (s.skipIf c).dt = s.dt := rfl
@[simp] theorem State.skipIf_st (s : State) (c : Bool) : (s.skipIf c).st = s.st := rfl
@[simp] theorem State.skipIf_mem (s : State) (c : Bool) : (s.skipIf c).mem = s.mem := rfl
@[simp] theorem State.skipIf_display (s : State) (c : Bool) : (s.skipIf c).display = s.display := rfl
@[simp] theorem State.skipIf_fault (s : State) (c : Bool) : (s.skipIf c).fault = s.fault := rfl
@[simp] theorem State.skipIf_inputs (s : State) (c : Bool) : (s.skipIf c).inputs = s.inputs := rfl
@[simp] theorem State.skipIf_stepNo (s : State) (c : Bool) : (s.skipIf c).stepNo = s.stepNo := rfl
@[simp] theorem State.skipIf_getV (s : State) (c : Bool) (r : Reg) : (s.skipIf c).getV r = s.getV r := rfl

@[simp] theorem State.skipIf_pc (s : State) (c : Bool) : (s.skipIf c).pc = if c then s.pc + 4#16 else s.pc + 2#16 := by
  cases c <;> rfl

/-! ## tick and consumeInput -/

@[simp] theorem State.tick_dt (s : State) : s.tick.dt = tickTimer s.dt := rfl
@[simp] theorem State.tick_st (s : State) : s.tick.st = tickTimer s.st := rfl
@[simp] theorem State.tick_mem (s : State) : s.tick.mem = s.mem := rfl
@[simp] theorem State.tick_display (s : State) : s.tick.display = s.display := rfl
@[simp] theorem State.tick_fault (s : State) : s.tick.fault = s.fault := rfl
@[simp] theorem State.tick_pc (s : State) : s.tick.pc = s.pc := rfl
@[simp] theorem State.tick_getV (s : State) (r : Reg) : s.tick.getV r = s.getV r := rfl
@[simp] theorem State.consumeInput_inputs (s : State) : s.consumeInput.inputs = s.inputs.tail := rfl
@[simp] theorem State.consumeInput_stepNo (s : State) : s.consumeInput.stepNo = s.stepNo + 1 := rfl
@[simp] theorem State.consumeInput_dt (s : State) : s.consumeInput.dt = s.dt := rfl
@[simp] theorem State.consumeInput_st (s : State) : s.consumeInput.st = s.st := rfl
@[simp] theorem State.consumeInput_mem (s : State) : s.consumeInput.mem = s.mem := rfl
@[simp] theorem State.consumeInput_display (s : State) : s.consumeInput.display = s.display := rfl
@[simp] theorem State.consumeInput_fault (s : State) : s.consumeInput.fault = s.fault := rfl
@[simp] theorem State.consumeInput_pc (s : State) : s.consumeInput.pc = s.pc := rfl
@[simp] theorem State.consumeInput_getV (s : State) (r : Reg) : s.consumeInput.getV r = s.getV r := rfl

/-! ## halted -/

/-- The machine is halted exactly when the latch holds a fault (R77). -/
theorem State.halted_iff (s : State) : s.halted = true ↔ s.fault ≠ .none := by
  cases h : s.fault <;> simp [State.halted, FaultLatch.code, h]

theorem State.halted_false_iff (s : State) : s.halted = false ↔ s.fault = .none := by
  cases h : s.fault <;> simp [State.halted, FaultLatch.code, h]

end Sys2Proof.Machine
end

