-- ==== Sys2Proof/Laws/Ops.lean ====
section
/-! SUPPORT. One lemma for each shared operation that says everything it can do. -/

namespace Sys2Proof.Machine

/-! ## The access controller (R35 to R37) -/

/-- No address is out of range exactly when the block is empty or ends at 0xFFF or below; otherwise the lowest offending address is
the block's own start or 0x1000. -/
theorem firstOutOfRange_eq (a n : Nat) :
    firstOutOfRange a n = if n = 0 ∨ a + n ≤ 0x1000 then none else some (max a 0x1000) := by
  unfold firstOutOfRange
  split
  · rename_i h
    rw [List.find?_eq_none]
    intro x hx
    simp only [List.mem_map, List.mem_range] at hx
    obtain ⟨k, hk, rfl⟩ := hx
    simp only [decide_eq_true_eq]
    omega
  · rename_i h
    have hsplit : List.range n = List.range (0x1000 - a) ++ (List.range (n - (0x1000 - a))).map (0x1000 - a + ·) := by
      rw [← List.range_add]; congr 1; omega
    have hleft : ((List.range (0x1000 - a)).map (a + ·)).find? (fun b => decide (b > 0xFFF)) = none := by
      rw [List.find?_eq_none]
      intro x hx
      simp only [List.mem_map, List.mem_range] at hx
      obtain ⟨k, hk, rfl⟩ := hx
      simp only [decide_eq_true_eq]
      omega
    have hpos : n - (0x1000 - a) = (n - (0x1000 - a) - 1) + 1 := by omega
    rw [hsplit, List.map_append, List.find?_append, hleft, hpos, List.range_succ_eq_map]
    simp only [List.map_cons, Nat.add_zero, Option.none_or]
    rw [List.find?_cons_of_pos (by simp only [decide_eq_true_eq]; omega)]
    congr 1
    omega

/-- The range check passes exactly for an empty block or one that ends at 0xFFF or below. -/
theorem State.checkRange_eq (s : State) (a n : Nat) (kind : AccessKind) :
    s.checkRange a n kind =
      if n = 0 ∨ a + n ≤ 0x1000 then .ok () else .error (.addressFault (max a 0x1000) kind s.pc) := by
  unfold State.checkRange
  rw [firstOutOfRange_eq]
  by_cases h : n = 0 ∨ a + n ≤ 0x1000 <;> simp [h]

/-- All that a block read can answer. -/
theorem State.readBlock_eq (s : State) (a n : Nat) :
    s.readBlock a n =
      if n = 0 ∨ a + n ≤ 0x1000 then .ok ((List.range n).map fun k => s.mem.read (a + k))
      else .error (.addressFault (max a 0x1000) .read s.pc) := by
  unfold State.readBlock
  rw [State.checkRange_eq]
  by_cases h : n = 0 ∨ a + n ≤ 0x1000 <;> simp [h]

/-- All that a block write can answer. -/
theorem State.writeBlock_eq (s : State) (a : Nat) (bs : List Byte) :
    s.writeBlock a bs =
      if bs.length = 0 ∨ a + bs.length ≤ 0x1000 then .ok { s with mem := s.mem.writeBytes a bs }
      else .error (.addressFault (max a 0x1000) .write s.pc) := by
  unfold State.writeBlock
  rw [State.checkRange_eq]
  by_cases h : bs.length = 0 ∨ a + bs.length ≤ 0x1000
  · rw [if_pos h, if_pos h]
  · rw [if_neg h, if_neg h]

/-! ## The call stack (R44, R45) -/

theorem State.push_of_lt {s : State} (v : Word) (h : s.sp.val < 16) :
    s.push v = .ok { s with stack := s.stack.set s.sp.val v h, sp := ⟨s.sp.val + 1, by omega⟩ } := dif_pos h

theorem State.push_full {s : State} (v : Word) (h : s.sp.val = 16) : s.push v = .error (.stackOverflow v) :=
  dif_neg (by omega)

theorem State.pop_of_pos {s : State} (h : 0 < s.sp.val) :
    s.pop = .ok (s.stack[s.sp.val - 1]'(by omega), { s with sp := ⟨s.sp.val - 1, by omega⟩ }) := dif_pos h

theorem State.pop_empty {s : State} (h : s.sp.val = 0) : s.pop = .error (.stackUnderflow s.pc) := dif_neg (by omega)

/-! ## The key test (R141) and the key-wait's scan (R143) -/

theorem State.keyTest_of_lt {s : State} {x : Reg} (h : (s.getV x).toNat < 16) :
    s.keyTest x = .ok (s.input.key[(s.getV x).toNat]'h) := dif_pos h

theorem State.keyTest_out_of_range {s : State} {x : Reg} (h : 15 < (s.getV x).toNat) :
    s.keyTest x = .error (.keyIndexFault (s.getV x) s.pc) := dif_neg (by omega)

/-- The scan finds no key exactly when none is pressed. -/
theorem lowestKey_eq_none (key : Vector Bool 16) : lowestKey key = none ↔ ∀ k : Fin 16, key[k] = false := by
  simp [lowestKey, List.find?_eq_none]

/-- The scan finds the least pressed key. -/
theorem lowestKey_eq_some (key : Vector Bool 16) (k : Fin 16) :
    lowestKey key = some k ↔ key[k] = true ∧ ∀ j : Fin 16, j < k → key[j] = false := by
  unfold lowestKey
  constructor
  · intro h
    obtain ⟨hk, i, hi, heq, hlt⟩ := List.find?_eq_some_iff_getElem.mp h
    refine ⟨hk, fun j hj => ?_⟩
    have hik : i = k.val := by simpa [Fin.ext_iff] using heq
    have := hlt j.val (by rw [hik]; exact hj)
    simpa using this
  · rintro ⟨hk, hlt⟩
    refine List.find?_eq_some_iff_getElem.mpr ⟨hk, k.val, by simp, by simp, fun j hj => ?_⟩
    simpa using hlt ⟨j, by omega⟩ hj

/-! ## The register block (R157, R158) -/

@[simp] theorem State.regBlock_length (s : State) (x : Reg) : (s.regBlock x).length = x.toNat + 1 := by
  simp [State.regBlock]

theorem State.regBlock_getElem (s : State) (x : Reg) (k : Nat) (h : k < (s.regBlock x).length) :
    (s.regBlock x)[k] = s.getV (BitVec.ofNat 4 k) := by
  simp [State.regBlock]

@[simp] theorem bcdDigits_length (v : Byte) : (bcdDigits v).length = 3 := rfl

/-- Loading registers changes V only. -/
theorem State.loadRegs_eq (bs : List Byte) : ∀ (s : State) (k : Nat), ∃ v, s.loadRegs k bs = { s with v := v } := by
  induction bs with
  | nil => intro s k; exact ⟨s.v, rfl⟩
  | cons b bs ih => intro s k; exact ih (s.setV (BitVec.ofNat 4 k) b) (k + 1)

/-- What a register reads as after a block load. -/
theorem State.getV_loadRegs (bs : List Byte) : ∀ (s : State) (k : Nat) (r : Reg), k + bs.length ≤ 16 →
    (s.loadRegs k bs).getV r = if h : k ≤ r.toNat ∧ r.toNat < k + bs.length then bs[r.toNat - k]'(by omega) else s.getV r := by
  induction bs with
  | nil => intro s k r _; rw [dif_neg (by simp)]; rfl
  | cons b bs ih =>
    intro s k r hk
    simp only [List.length_cons] at hk
    rw [State.loadRegs, ih _ _ r (by omega), State.getV_setV]
    have hr : r = BitVec.ofNat 4 k ↔ r.toNat = k := by
      rw [← BitVec.toNat_inj, BitVec.toNat_ofNat, Nat.mod_eq_of_lt (by omega)]
    by_cases h1 : r.toNat = k
    · rw [dif_neg (by omega), if_pos (hr.mpr h1), dif_pos (by simp; omega)]
      simp [h1]
    · rw [if_neg (fun h => h1 (hr.mp h))]
      by_cases h2 : k ≤ r.toNat ∧ r.toNat < k + (b :: bs).length
      · have hidx : r.toNat - k = (r.toNat - (k + 1)) + 1 := by omega
        simp only [List.length_cons] at h2
        rw [dif_pos (by omega), dif_pos (by simp; omega)]
        simp [hidx]
      · simp only [List.length_cons] at h2
        rw [dif_neg (by omega), dif_neg (by simp; omega)]

/-! ## Timers, random byte, font address -/

theorem tickTimer_toNat (t : Byte) : (tickTimer t).toNat = t.toNat - 1 := by
  unfold tickTimer
  split
  · rename_i h
    have h0 : t.toNat ≠ 0 := fun h' => h (BitVec.eq_of_toNat_eq (by simpa using h'))
    rw [BitVec.toNat_sub]
    have := t.isLt
    simp
    omega
  · rename_i h
    simp only [Decidable.not_not] at h
    rw [h]
    rfl

/-- The random byte is 0 to 254 (R110). -/
theorem State.rndByte_le (s : State) : s.rndByte.toNat ≤ 254 := by
  have := s.input.rnd.isLt
  simp only [State.rndByte, BitVec.toNat_ofNat]
  omega

theorem zextByte_toNat (b : Byte) : (zextByte b).toNat = b.toNat := by
  have := b.isLt
  simp [zextByte]
  omega

theorem zextAddr_toNat (a : Addr12) : (zextAddr a).toNat = a.toNat := by
  have := a.isLt
  simp [zextAddr]
  omega

theorem fontAddr_toNat (d : Byte) : (fontAddr d).toNat = 0x050 + 5 * d.toNat := by
  have := d.isLt
  unfold fontAddr
  rw [BitVec.toNat_add, BitVec.toNat_mul, zextByte_toNat]
  simp
  omega

/-! ## Fetch (R71, R39) and the end of a step (R75, R76) -/

/-- All that a fetch can answer. -/
theorem State.fetchWord_eq (s : State) :
    s.fetchWord =
      if s.pc.toNat + 2 ≤ 0x1000 then .ok (wordOfBytes (s.mem.read s.pc.toNat) (s.mem.read (s.pc.toNat + 1)))
      else .error (.addressFault (max s.pc.toNat 0x1000) .fetch s.pc) := by
  unfold State.fetchWord
  rw [State.checkRange_eq]
  by_cases h : s.pc.toNat + 2 ≤ 0x1000 <;> simp [h]

/-- A step of a machine that is not halted: a fault of fetch or decode, or the decoded instruction executed and the step
completed. -/
theorem step_of_running {s : State} (h : s.fault = .none) :
    step s = match s.fetchInstr with
      | .error f => .next (s.raise f).consumeInput
      | .ok i => completeStep (exec i s) := by
  unfold step
  rw [(State.halted_false_iff s).mpr h]
  rfl

theorem State.afterExec_running {t : State} (h : t.fault = .none) : t.afterExec = t.tick.consumeInput := by
  simp [State.afterExec, (State.halted_false_iff t).mpr h]

theorem State.afterExec_faulted {t : State} (h : t.fault ≠ .none) : t.afterExec = t.consumeInput := by
  simp [State.afterExec, (State.halted_iff t).mpr h]

/-- A step of a halted machine. -/
theorem step_of_halted {s : State} (h : s.fault ≠ .none) : step s = .next s.consumeInput := by
  unfold step
  rw [(State.halted_iff s).mpr h]
  rfl

end Sys2Proof.Machine
end

