-- ==== Sys2Proof/Laws/Exec.lean ====
section
/-! SUPPORT. What Execute can do, over all instructions: it always answers a next state, which keeps the latch or is the fault entry. -/

namespace Sys2Proof.Machine

/-- Execute always answers a next state. -/
theorem exec_answers_next (ins : Instr) (s : State) : ∃ t, exec ins s = .next t := by
  cases ins <;> simp only [exec] <;> first
    | exact ⟨_, rfl⟩
    | (unfold execRet; split <;> exact ⟨_, rfl⟩)
    | (unfold execCall; split <;> exact ⟨_, rfl⟩)
    | (unfold execDrw; split <;> exact ⟨_, rfl⟩)
    | (unfold execSkp; split <;> exact ⟨_, rfl⟩)
    | (unfold execSknp; split <;> exact ⟨_, rfl⟩)
    | (unfold execLdB; split <;> exact ⟨_, rfl⟩)
    | (unfold execLdMemVx; split <;> exact ⟨_, rfl⟩)
    | (unfold execLdVxMem; split <;> exact ⟨_, rfl⟩)

theorem State.push_fault {s t : State} {v : Word} (h : s.push v = .ok t) : t.fault = s.fault := by
  unfold State.push at h
  split at h <;> cases h
  rfl

theorem State.pop_fault {s t : State} {a : Word} (h : s.pop = .ok (a, t)) : t.fault = s.fault := by
  unfold State.pop at h
  split at h <;> cases h
  rfl

theorem State.writeBlock_fault {s t : State} {a : Nat} {bs : List Byte} (h : s.writeBlock a bs = .ok t) :
    t.fault = s.fault := by
  rw [State.writeBlock_eq] at h
  split at h <;> cases h
  rfl

/-- Execute keeps the FAULT latch, or does nothing but the fault entry (R176, R177). -/
theorem exec_latch_or_raise {ins : Instr} {s t : State} (h : exec ins s = .next t) :
    t.fault = s.fault ∨ t = s.raise t.fault := by
  cases ins
  case ret =>
    simp only [exec, execRet] at h
    split at h
    · cases h; exact Or.inr rfl
    · rename_i hp; cases h; exact Or.inl ((State.pop_fault hp :))
  case call addr =>
    simp only [exec, execCall] at h
    split at h
    · cases h; exact Or.inr rfl
    · rename_i hp; cases h; exact Or.inl ((State.push_fault hp :))
  case drw x y n =>
    simp only [exec, execDrw] at h
    split at h <;> cases h
    · exact Or.inr rfl
    · exact Or.inl rfl
  case skp x =>
    simp only [exec, execSkp] at h
    split at h <;> cases h
    · exact Or.inr rfl
    · exact Or.inl rfl
  case sknp x =>
    simp only [exec, execSknp] at h
    split at h <;> cases h
    · exact Or.inr rfl
    · exact Or.inl rfl
  case ldB x =>
    simp only [exec, execLdB] at h
    split at h
    · cases h; exact Or.inr rfl
    · rename_i hw; cases h; exact Or.inl ((State.writeBlock_fault hw :))
  case ldMemVx x =>
    simp only [exec, execLdMemVx] at h
    split at h
    · cases h; exact Or.inr rfl
    · rename_i hw; cases h; exact Or.inl ((State.writeBlock_fault hw :))
  case ldVxMem x =>
    simp only [exec, execLdVxMem] at h
    split at h
    · cases h; exact Or.inr rfl
    · rename_i bytes _; cases h
      obtain ⟨v, hv⟩ := State.loadRegs_eq bytes s 0
      rw [hv]
      exact Or.inl rfl
  case ldVxK x =>
    simp only [exec, execLdVxK, State.keyWait] at h
    split at h <;> cases h <;> exact Or.inl rfl
  all_goals simp only [exec] at h; cases h; exact Or.inl rfl

end Sys2Proof.Machine
end

