-- ==== Sys2Proof/Laws/PerInstr.lean ====
section
/-! SUPPORT. A family of statements made per instruction: the encoded word of each instruction carries the fixed bits of its own row
of spec/30_encoding.md R54. -/

namespace Sys2Proof.Laws

/-- The mask and match of an instruction's row of R54. -/
def rowOf : Instr → OpcodeRow
  | .cls => ⟨0xFFFF, 0x00E0⟩
  | .ret => ⟨0xFFFF, 0x00EE⟩
  | .jp _ => ⟨0xF000, 0x1000⟩
  | .call _ => ⟨0xF000, 0x2000⟩
  | .seImm _ _ => ⟨0xF000, 0x3000⟩
  | .sneImm _ _ => ⟨0xF000, 0x4000⟩
  | .seReg _ _ => ⟨0xF00F, 0x5000⟩
  | .ldImm _ _ => ⟨0xF000, 0x6000⟩
  | .addImm _ _ => ⟨0xF000, 0x7000⟩
  | .ldReg _ _ => ⟨0xF00F, 0x8000⟩
  | .orReg _ _ => ⟨0xF00F, 0x8001⟩
  | .andReg _ _ => ⟨0xF00F, 0x8002⟩
  | .xorReg _ _ => ⟨0xF00F, 0x8003⟩
  | .addReg _ _ => ⟨0xF00F, 0x8004⟩
  | .subReg _ _ => ⟨0xF00F, 0x8005⟩
  | .shr _ _ => ⟨0xF00F, 0x8006⟩
  | .subnReg _ _ => ⟨0xF00F, 0x8007⟩
  | .shl _ _ => ⟨0xF00F, 0x800E⟩
  | .sneReg _ _ => ⟨0xF00F, 0x9000⟩
  | .ldI _ => ⟨0xF000, 0xA000⟩
  | .jpV0 _ => ⟨0xF000, 0xB000⟩
  | .rnd _ _ => ⟨0xF000, 0xC000⟩
  | .drw _ _ _ => ⟨0xF000, 0xD000⟩
  | .skp _ => ⟨0xF0FF, 0xE09E⟩
  | .sknp _ => ⟨0xF0FF, 0xE0A1⟩
  | .ldVxDt _ => ⟨0xF0FF, 0xF007⟩
  | .ldVxK _ => ⟨0xF0FF, 0xF00A⟩
  | .ldDtVx _ => ⟨0xF0FF, 0xF015⟩
  | .ldStVx _ => ⟨0xF0FF, 0xF018⟩
  | .addI _ => ⟨0xF0FF, 0xF01E⟩
  | .ldF _ => ⟨0xF0FF, 0xF029⟩
  | .ldB _ => ⟨0xF0FF, 0xF033⟩
  | .ldMemVx _ => ⟨0xF0FF, 0xF055⟩
  | .ldVxMem _ => ⟨0xF0FF, 0xF065⟩

/-- A mask on a format A word keeps the high nibble. -/
theorem accepts_wordA (op : BitVec 4) (addr : Addr12) (p : Word) (hp : p = wordA op 0) :
    OpcodeRow.accepts ⟨0xF000, p⟩ (wordA op addr) = true := by
  subst hp
  refine decide_eq_true ?_
  show (op ++ addr : BitVec 16) &&& 0xF000#16 = (op ++ 0#12 : BitVec 16)
  ext k hk
  simp only [BitVec.getElem_and, BitVec.getElem_append]
  interval_cases k <;> simp

theorem accepts_wordXK (op : BitVec 4) (x : Reg) (kk : Byte) (p : Word) (hp : p = wordXK op 0 0) :
    OpcodeRow.accepts ⟨0xF000, p⟩ (wordXK op x kk) = true := by
  subst hp
  refine decide_eq_true ?_
  show (op ++ (x ++ kk) : BitVec 16) &&& 0xF000#16 = (op ++ (0#4 ++ 0#8) : BitVec 16)
  ext k hk
  simp only [BitVec.getElem_and, BitVec.getElem_append]
  interval_cases k <;> simp

theorem accepts_wordX (op : BitVec 4) (x : Reg) (kk : Byte) (p : Word) (hp : p = wordXK op 0 kk) :
    OpcodeRow.accepts ⟨0xF0FF, p⟩ (wordXK op x kk) = true := by
  subst hp
  refine decide_eq_true ?_
  show (op ++ (x ++ kk) : BitVec 16) &&& 0xF0FF#16 = (op ++ (0#4 ++ kk) : BitVec 16)
  ext k hk
  simp only [BitVec.getElem_and, BitVec.getElem_append]
  interval_cases k <;> simp

theorem accepts_wordXY (op : BitVec 4) (x y : Reg) (n : BitVec 4) (p : Word) (hp : p = wordXYN op 0 0 n) :
    OpcodeRow.accepts ⟨0xF00F, p⟩ (wordXYN op x y n) = true := by
  subst hp
  refine decide_eq_true ?_
  show (op ++ (x ++ (y ++ n)) : BitVec 16) &&& 0xF00F#16 = (op ++ (0#4 ++ (0#4 ++ n)) : BitVec 16)
  ext k hk
  simp only [BitVec.getElem_and, BitVec.getElem_append]
  interval_cases k <;> simp

theorem accepts_wordXYN (op : BitVec 4) (x y : Reg) (n : BitVec 4) (p : Word) (hp : p = wordXYN op 0 0 0) :
    OpcodeRow.accepts ⟨0xF000, p⟩ (wordXYN op x y n) = true := by
  subst hp
  refine decide_eq_true ?_
  show (op ++ (x ++ (y ++ n)) : BitVec 16) &&& 0xF000#16 = (op ++ (0#4 ++ (0#4 ++ 0#4)) : BitVec 16)
  ext k hk
  simp only [BitVec.getElem_and, BitVec.getElem_append]
  interval_cases k <;> simp

namespace EncodedRow

/-- The encoded word is a word of the instruction's own row of R54. -/
def Statement (i : Instr) : Prop := (rowOf i).accepts (encodeWord i) = true

theorem cls : Statement .cls := by unfold Statement; decide
theorem ret : Statement .ret := by unfold Statement; decide
theorem jp (addr : Addr12) : Statement (.jp addr) := accepts_wordA _ _ _ (by decide)
theorem call (addr : Addr12) : Statement (.call addr) := accepts_wordA _ _ _ (by decide)
theorem seImm (x : Reg) (kk : Byte) : Statement (.seImm x kk) := accepts_wordXK _ _ _ _ (by decide)
theorem sneImm (x : Reg) (kk : Byte) : Statement (.sneImm x kk) := accepts_wordXK _ _ _ _ (by decide)
theorem seReg (x y : Reg) : Statement (.seReg x y) := accepts_wordXY _ _ _ _ _ (by decide)
theorem ldImm (x : Reg) (kk : Byte) : Statement (.ldImm x kk) := accepts_wordXK _ _ _ _ (by decide)
theorem addImm (x : Reg) (kk : Byte) : Statement (.addImm x kk) := accepts_wordXK _ _ _ _ (by decide)
theorem ldReg (x y : Reg) : Statement (.ldReg x y) := accepts_wordXY _ _ _ _ _ (by decide)
theorem orReg (x y : Reg) : Statement (.orReg x y) := accepts_wordXY _ _ _ _ _ (by decide)
theorem andReg (x y : Reg) : Statement (.andReg x y) := accepts_wordXY _ _ _ _ _ (by decide)
theorem xorReg (x y : Reg) : Statement (.xorReg x y) := accepts_wordXY _ _ _ _ _ (by decide)
theorem addReg (x y : Reg) : Statement (.addReg x y) := accepts_wordXY _ _ _ _ _ (by decide)
theorem subReg (x y : Reg) : Statement (.subReg x y) := accepts_wordXY _ _ _ _ _ (by decide)
theorem shr (x y : Reg) : Statement (.shr x y) := accepts_wordXY _ _ _ _ _ (by decide)
theorem subnReg (x y : Reg) : Statement (.subnReg x y) := accepts_wordXY _ _ _ _ _ (by decide)
theorem shl (x y : Reg) : Statement (.shl x y) := accepts_wordXY _ _ _ _ _ (by decide)
theorem sneReg (x y : Reg) : Statement (.sneReg x y) := accepts_wordXY _ _ _ _ _ (by decide)
theorem ldI (addr : Addr12) : Statement (.ldI addr) := accepts_wordA _ _ _ (by decide)
theorem jpV0 (addr : Addr12) : Statement (.jpV0 addr) := accepts_wordA _ _ _ (by decide)
theorem rnd (x : Reg) (kk : Byte) : Statement (.rnd x kk) := accepts_wordXK _ _ _ _ (by decide)
theorem drw (x y : Reg) (n : Nibble) : Statement (.drw x y n) := accepts_wordXYN _ _ _ _ _ (by decide)
theorem skp (x : Reg) : Statement (.skp x) := accepts_wordX _ _ _ _ (by decide)
theorem sknp (x : Reg) : Statement (.sknp x) := accepts_wordX _ _ _ _ (by decide)
theorem ldVxDt (x : Reg) : Statement (.ldVxDt x) := accepts_wordX _ _ _ _ (by decide)
theorem ldVxK (x : Reg) : Statement (.ldVxK x) := accepts_wordX _ _ _ _ (by decide)
theorem ldDtVx (x : Reg) : Statement (.ldDtVx x) := accepts_wordX _ _ _ _ (by decide)
theorem ldStVx (x : Reg) : Statement (.ldStVx x) := accepts_wordX _ _ _ _ (by decide)
theorem addI (x : Reg) : Statement (.addI x) := accepts_wordX _ _ _ _ (by decide)
theorem ldF (x : Reg) : Statement (.ldF x) := accepts_wordX _ _ _ _ (by decide)
theorem ldB (x : Reg) : Statement (.ldB x) := accepts_wordX _ _ _ _ (by decide)
theorem ldMemVx (x : Reg) : Statement (.ldMemVx x) := accepts_wordX _ _ _ _ (by decide)
theorem ldVxMem (x : Reg) : Statement (.ldVxMem x) := accepts_wordX _ _ _ _ (by decide)

end EncodedRow

end Sys2Proof.Laws
end

