-- ==== Sys2Proof/Tests/Slice0.lean ====
section
/-! SUPPORT. Tests of single decodings and single steps. Every expected value is taken from spec/95_test_vectors.md (the vector's id
stands before each theorem) or from the example of the rule named there; none comes from the model. -/

namespace Sys2Proof.Tests

open Sys2Proof.Machine

/-- The next state of an outcome. -/
def nextOf : Host.Outcome State Fault Refusal → Option State
  | .next t => some t
  | _ => none

/-- The reset state with the word `w` at 0x200. -/
def boot (w : Nat) : State := State.reset.withFetchWord 16 w

/-- A view of the state after one step. -/
def seen {α : Type} (s : State) (f : State → α) : Option α := (nextOf (step s)).map f

/-- The state with the keys of `ks` pressed and the random byte `r` at its next step. -/
def withKeys (s : State) (ks : List (Fin 16)) (r : Fin 255) : State :=
  s.giveInput ⟨ks.foldl (fun (v : Vector Bool 16) (k : Fin 16) => v.set k true) (Vector.replicate 16 false), r⟩

/-- The state with the bytes `bs` in memory from `a` on. -/
def poke (s : State) (a : Nat) (bs : List Byte) : State := { s with mem := s.mem.writeBytes a bs }

/-! Well-formedness: one ill-formed word for each family of R55, refused by the check and by the decoder. -/

theorem test_illegal_words_refused :
    (([0x0000, 0x00E1, 0x00EF, 0x0123, 0x0FFF, 0x5121, 0x512F, 0x9AB1, 0x8128, 0x812D, 0x812F, 0xE09F, 0xE0A0, 0xE000,
       0xE19D, 0xF000, 0xF006, 0xF00B, 0xF01F, 0xF056, 0xF075, 0xF085, 0xF0FF, 0xFFFF] : List Word).all
      fun w => !wordWellFormed w && (decodeWord w).isNone) = true := by decide

theorem test_truncated_refused : decode [0x12#8] = .error .truncated := by decide

theorem test_unknown_named : decode [0x81#8, 0x28#8] = .error (.unknownOpcode 0x8128#16) := by decide

/-- R58: extreme operand values are well-formed. -/
theorem test_extreme_operands_well_formed :
    (Instr.drw 0xF 0xF 0x0).wellFormed = true ∧ (Instr.jp 0xFFF).wellFormed = true := by decide

/-! Decoding: one word per row of R54 (spec/95_test_vectors.md, Decode). -/

theorem test_decode_control :
    decode [0x00#8, 0xE0#8] = .ok (.cls, []) ∧ decode [0x00#8, 0xEE#8] = .ok (.ret, []) ∧
    decode [0x1A#8, 0xBC#8] = .ok (.jp 0xABC, []) ∧ decode [0x2F#8, 0xFF#8] = .ok (.call 0xFFF, []) ∧
    decode [0xB0#8, 0x00#8] = .ok (.jpV0 0x000, []) ∧ decode [0xA1#8, 0x23#8] = .ok (.ldI 0x123, []) := by decide

theorem test_decode_skips :
    decode [0x3A#8, 0x7F#8] = .ok (.seImm 0xA 0x7F, []) ∧ decode [0x4B#8, 0x00#8] = .ok (.sneImm 0xB 0x00, []) ∧
    decode [0x51#8, 0x20#8] = .ok (.seReg 1 2, []) ∧ decode [0x9E#8, 0xF0#8] = .ok (.sneReg 0xE 0xF, []) := by decide

theorem test_decode_immediate :
    decode [0x6C#8, 0xFF#8] = .ok (.ldImm 0xC 0xFF, []) ∧ decode [0x7D#8, 0x01#8] = .ok (.addImm 0xD 0x01, []) ∧
    decode [0xC5#8, 0xF0#8] = .ok (.rnd 5 0xF0, []) := by decide

theorem test_decode_alu :
    decode [0x8A#8, 0xB0#8] = .ok (.ldReg 0xA 0xB, []) ∧ decode [0x8A#8, 0xB1#8] = .ok (.orReg 0xA 0xB, []) ∧
    decode [0x8A#8, 0xB2#8] = .ok (.andReg 0xA 0xB, []) ∧ decode [0x8A#8, 0xB3#8] = .ok (.xorReg 0xA 0xB, []) ∧
    decode [0x8A#8, 0xB4#8] = .ok (.addReg 0xA 0xB, []) ∧ decode [0x8A#8, 0xB5#8] = .ok (.subReg 0xA 0xB, []) ∧
    decode [0x8A#8, 0xB6#8] = .ok (.shr 0xA 0xB, []) ∧ decode [0x8A#8, 0xB7#8] = .ok (.subnReg 0xA 0xB, []) ∧
    decode [0x8A#8, 0xBE#8] = .ok (.shl 0xA 0xB, []) := by decide

theorem test_decode_draw :
    decode [0xD0#8, 0x1F#8] = .ok (.drw 0 1 15, []) ∧ decode [0xD2#8, 0x30#8] = .ok (.drw 2 3 0, []) := by decide

theorem test_decode_key :
    decode [0xE7#8, 0x9E#8] = .ok (.skp 7, []) ∧ decode [0xE7#8, 0xA1#8] = .ok (.sknp 7, []) := by decide

theorem test_decode_timers :
    decode [0xF8#8, 0x07#8] = .ok (.ldVxDt 8, []) ∧ decode [0xF8#8, 0x0A#8] = .ok (.ldVxK 8, []) ∧
    decode [0xF8#8, 0x15#8] = .ok (.ldDtVx 8, []) ∧ decode [0xF8#8, 0x18#8] = .ok (.ldStVx 8, []) := by decide

theorem test_decode_index_memory :
    decode [0xF8#8, 0x1E#8] = .ok (.addI 8, []) ∧ decode [0xF8#8, 0x29#8] = .ok (.ldF 8, []) ∧
    decode [0xF8#8, 0x33#8] = .ok (.ldB 8, []) ∧ decode [0xF8#8, 0x55#8] = .ok (.ldMemVx 8, []) ∧
    decode [0xF8#8, 0x65#8] = .ok (.ldVxMem 8, []) := by decide

theorem test_decode_table_word : decodeTableWord 16 0xD01F = some (.drw 0 1 15) := by decide

theorem test_encode_is_big_endian : encode (.jp 0x234) = [0x12#8, 0x34#8] := by decide

/-! Control flow (CF vectors). -/

/-- CF1, CF2. -/
theorem test_jp : seen (boot 0x1204) (·.pc) = some 0x0204#16 ∧ seen (boot 0x1201) (·.pc) = some 0x0201#16 := by decide

/-- CF3: the step after a jump to 0xFFF faults at fetch and PC stays. -/
theorem test_fetch_at_top_faults :
    seen { State.reset with pc := 0xFFF#16 } (fun t => (t.fault, t.pc)) =
      some (.addressFault 0x1000 .fetch 0xFFF#16, 0xFFF#16) := by decide

/-- CF5. -/
theorem test_call_last_slot :
    seen { boot 0x2ABC with sp := 15 } (fun t => (t.stack[15], t.sp, t.pc)) = some (0x200#16, 16, 0xABC#16) := by decide

/-- CF6. -/
theorem test_call_overflow :
    seen { boot 0x2ABC with sp := 16 } (fun t => (t.fault, t.sp, t.pc)) = some (.stackOverflow 0x200#16, 16, 0x200#16) := by
  decide

/-- CF7. -/
theorem test_ret :
    seen { boot 0x00EE with sp := 1, stack := (Vector.replicate 16 0#16).set 0 0x345#16 }
      (fun t => (t.sp, t.pc, t.stack[0])) = some (0, 0x347#16, 0x345#16) := by decide

/-- CF8. -/
theorem test_ret_underflow :
    seen (boot 0x00EE) (fun t => (t.fault, t.sp, t.pc)) = some (.stackUnderflow 0x200#16, 0, 0x200#16) := by decide

/-- CF9, CF10. -/
theorem test_se_imm :
    seen (boot 0x3100) (·.pc) = some 0x204#16 ∧ seen ((boot 0x3100).setV 1 1) (·.pc) = some 0x202#16 := by decide

/-- CF11, CF12. -/
theorem test_sne_imm :
    seen (boot 0x4100) (·.pc) = some 0x202#16 ∧ seen ((boot 0x4100).setV 1 1) (·.pc) = some 0x204#16 := by decide

/-- CF13, CF14. -/
theorem test_se_reg :
    seen (((boot 0x5340).setV 3 0x7F).setV 4 0x7F) (·.pc) = some 0x204#16 ∧
    seen (((boot 0x5340).setV 3 1).setV 4 2) (·.pc) = some 0x202#16 := by decide

/-- CF16, CF17. -/
theorem test_sne_reg :
    seen (((boot 0x9340).setV 3 1).setV 4 2) (·.pc) = some 0x204#16 ∧
    seen (((boot 0x9340).setV 3 1).setV 4 1) (·.pc) = some 0x202#16 := by decide

/-- CF20, CF21. -/
theorem test_jp_v0 :
    seen ((boot 0xB300).setV 0 0xFF) (·.pc) = some 0x3FF#16 ∧ seen ((boot 0xBFFF).setV 0 0xFF) (·.pc) = some 0x10FE#16 := by
  decide

/-! Arithmetic (AR vectors). -/

/-- AR1, AR2. -/
theorem test_ld_imm : seen (boot 0x6105) (·.getV 1) = some 5#8 ∧ seen (boot 0x6FAA) (·.getV 0xF) = some 0xAA#8 := by decide

/-- AR4: no carry flag. -/
theorem test_add_imm :
    seen (((boot 0x7001).setV 0 0xFF).setV 0xF 9) (fun t => (t.getV 0, t.getV 0xF)) = some (0#8, 9#8) := by decide

/-- AR5. -/
theorem test_ld_reg : seen ((boot 0x8120).setV 2 0xAB) (·.getV 1) = some 0xAB#8 := by decide

/-- AR6. -/
theorem test_add_carry :
    seen (((boot 0x8014).setV 0 0xFF).setV 1 1) (fun t => (t.getV 0, t.getV 0xF)) = some (0#8, 1#8) := by decide

/-- AR10: x = F, the flag survives. -/
theorem test_add_into_vf : seen (((boot 0x8F14).setV 0xF 0xFF).setV 1 2) (·.getV 0xF) = some 1#8 := by decide

/-- AR14. -/
theorem test_sub_borrow :
    seen (((boot 0x8015).setV 0 1).setV 1 2) (fun t => (t.getV 0, t.getV 0xF)) = some (0xFF#8, 0#8) := by decide

/-- AR15: equal operands, no borrow. -/
theorem test_sub_equal :
    seen (((boot 0x8015).setV 0 0x33).setV 1 0x33) (fun t => (t.getV 0, t.getV 0xF)) = some (0#8, 1#8) := by decide

/-- AR19. -/
theorem test_subn :
    seen (((boot 0x8017).setV 0 1).setV 1 0x10) (fun t => (t.getV 0, t.getV 0xF)) = some (0xF#8, 1#8) := by decide

/-- AR20. -/
theorem test_subn_borrow :
    seen (((boot 0x8017).setV 0 2).setV 1 1) (fun t => (t.getV 0, t.getV 0xF)) = some (0xFF#8, 0#8) := by decide

/-! Bitwise and shifts (BW vectors). -/

/-- BW1. -/
theorem test_or :
    seen ((((boot 0x8011).setV 0 0xF0).setV 1 0x0F).setV 0xF 7) (fun t => (t.getV 0, t.getV 0xF)) = some (0xFF#8, 7#8) := by
  decide

/-- BW2. -/
theorem test_and :
    seen ((((boot 0x8012).setV 0 0xFC).setV 1 0x3F).setV 0xF 7) (fun t => (t.getV 0, t.getV 0xF)) = some (0x3C#8, 7#8) := by
  decide

/-- BW3. -/
theorem test_xor :
    seen ((((boot 0x8013).setV 0 0xFF).setV 1 0x0F).setV 0xF 7) (fun t => (t.getV 0, t.getV 0xF)) = some (0xF0#8, 7#8) := by
  decide

/-- BW6. -/
theorem test_shr : seen ((boot 0x8016).setV 0 0xFF) (fun t => (t.getV 0, t.getV 0xF)) = some (0x7F#8, 1#8) := by decide

/-- BW9. -/
theorem test_shr_vf : seen ((boot 0x8F06).setV 0xF 3) (·.getV 0xF) = some 0#8 := by decide

/-- BW16. -/
theorem test_shl :
    seen (((boot 0x805E).setV 0 0x81).setV 5 0x33) (fun t => (t.getV 0, t.getV 0xF, t.getV 5)) = some (2#8, 1#8, 0x33#8) := by
  decide

/-- BW13. -/
theorem test_shl_vf : seen ((boot 0x8F0E).setV 0xF 0x80) (·.getV 0xF) = some 2#8 := by decide

/-! Random (RN vectors). -/

/-- RN1. -/
theorem test_rnd : seen (withKeys (boot 0xC00F) [] 0xFE) (·.getV 0) = some 0x0E#8 := by decide

/-- RN2. -/
theorem test_rnd_full_mask : seen (withKeys (boot 0xCAFF) [] 0xFE) (·.getV 0xA) = some 0xFE#8 := by decide

/-! Display (DR vectors). -/

/-- DR9: the glyph of 0 drawn across both edges. -/
theorem test_drw_wraps :
    seen (({ boot 0xD125 with i := 0x050 }.setV 1 0x3E).setV 2 0x1E)
      (fun t => ([60, 61, 62, 63, 0, 1, 2, 3, 4, 5].map fun k : Fin 64 => t.display.words[k], t.getV 0xF)) =
      some ([0xC0000000#32, 3#32, 0x40000000#32, 2#32, 0x40000000#32, 2#32, 0x40000000#32, 2#32, 0xC0000000#32, 3#32], 0#8) := by
  decide +kernel

/-- DR12: AddressFault before any effect. -/
theorem test_drw_fault :
    seen ({ boot 0xD013 with i := 0xFFE }.setV 0xF 7) (fun t => (t.fault, t.getV 0xF, t.pc, t.display)) =
      some (.addressFault 0x1000 .read 0x200#16, 7#8, 0x200#16, Display.reset) := by decide

/-- DR10. -/
theorem test_cls :
    seen { boot 0x00E0 with display := Display.clear true } (fun t => (hostPull t).1) =
      some (some (0, List.replicate 64 0#32)) := by decide +kernel

/-! Keypad (KY vectors). -/

/-- KY1, KY2. -/
theorem test_skp :
    seen (withKeys ((boot 0xE09E).setV 0 5) [5] 0) (·.pc) = some 0x204#16 ∧
    seen (withKeys ((boot 0xE09E).setV 0 5) [] 0) (·.pc) = some 0x202#16 := by decide

/-- KY5. -/
theorem test_skp_index_fault :
    seen ((boot 0xE09E).setV 0 0x10) (fun t => (t.fault, t.pc)) = some (.keyIndexFault 0x10#8 0x200#16, 0x200#16) := by decide

/-- KY3, KY4. -/
theorem test_sknp :
    seen (withKeys ((boot 0xE0A1).setV 0 5) [] 0) (·.pc) = some 0x204#16 ∧
    seen (withKeys ((boot 0xE0A1).setV 0 5) [5] 0) (·.pc) = some 0x202#16 := by decide

/-- KY7: no key, the machine stays and the timer ticks. -/
theorem test_key_wait_stays :
    seen (withKeys ({ boot 0xF10A with dt := 3 }.setV 1 0x55) [] 0) (fun t => (t.pc, t.getV 1, t.dt)) =
      some (0x200#16, 0x55#8, 2#8) := by decide

/-- KY10: the lowest of several keys. -/
theorem test_key_wait_lowest :
    seen (withKeys (boot 0xF10A) [3, 12, 4] 0) (fun t => (t.pc, t.getV 1)) = some (0x202#16, 3#8) := by decide

/-! Index, timers, font, BCD, block transfers (TX vectors). -/

/-- TX2. -/
theorem test_ld_i : seen { boot 0xAFFF with i := 0xFFFF } (·.i) = some 0x0FFF#16 := by decide

/-- TX3. -/
theorem test_ld_vx_dt : seen { boot 0xF207 with dt := 5 } (fun t => (t.getV 2, t.dt)) = some (5#8, 4#8) := by decide

/-- TX5, TX6. -/
theorem test_ld_dt :
    seen ((boot 0xF015).setV 0 3) (·.dt) = some 2#8 ∧ seen { boot 0xF015 with dt := 9 } (·.dt) = some 0#8 := by decide

/-- TX8, TX9. -/
theorem test_ld_st :
    seen ((boot 0xF018).setV 0 2) (fun t => (t.st, t.beep)) = some (1#8, true) ∧
    seen ((boot 0xF018).setV 0 1) (fun t => (t.st, t.beep)) = some (0#8, false) := by decide

/-- TX12, TX13. -/
theorem test_add_i :
    seen ({ boot 0xF01E with i := 0x0FFF }.setV 0 1) (fun t => (t.i, t.getV 0xF)) = some (0x1000#16, 0#8) ∧
    seen ({ boot 0xF01E with i := 0xFFFF }.setV 0 0xFF) (·.i) = some 0x00FE#16 := by decide

/-- TX15, TX16. -/
theorem test_ld_f :
    seen ((boot 0xF029).setV 0 0x0F) (·.i) = some 0x009B#16 ∧ seen ((boot 0xF029).setV 0 0xFF) (·.i) = some 0x054B#16 := by
  decide

/-- TX19. -/
theorem test_ld_b :
    seen ({ boot 0xF033 with i := 0xFFD }.setV 0 0xFF) (fun t => (t.mem.read 0xFFD, t.mem.read 0xFFE, t.mem.read 0xFFF)) =
      some (2#8, 5#8, 5#8) := by decide

/-- TX20. -/
theorem test_ld_b_fault :
    seen ({ boot 0xF033 with i := 0xFFE }.setV 0 0xFF) (fun t => (t.fault, t.mem.read 0xFFE, t.mem.read 0xFFF)) =
      some (.addressFault 0x1000 .write 0x200#16, 0#8, 0#8) := by decide

/-- TX24. -/
theorem test_store_block :
    seen (({ boot 0xF055 with i := 0x400 }.setV 0 0xAA).setV 1 0xBB) (fun t => (t.mem.read 0x400, t.mem.read 0x401, t.i)) =
      some (0xAA#8, 0#8, 0x400#16) := by decide

/-- TX25: nothing written. -/
theorem test_store_block_fault :
    seen ({ boot 0xF555 with i := 0xFFB }.setV 0 0x10) (fun t => (t.fault, t.mem.read 0xFFB)) =
      some (.addressFault 0x1000 .write 0x200#16, 0#8) := by decide

/-- TX30: the glyph of 0, from the reset font. -/
theorem test_load_block_font :
    seen { boot 0xF465 with i := 0x050 } (fun t => (t.getV 0, t.getV 1, t.getV 4, t.getV 5)) =
      some (0xF0#8, 0x90#8, 0xF0#8, 0#8) := by decide

/-- TX29. -/
theorem test_load_block_fault :
    seen { boot 0xF065 with i := 0x1000 } (·.fault) = some (.addressFault 0x1000 .read 0x200#16) := by decide

/-! The step and the host's operations (ST, S vectors). -/

/-- ST1. -/
theorem test_tick : seen { boot 0x6000 with dt := 2, st := 1 } (fun t => (t.dt, t.st)) = some (1#8, 0#8) := by decide

/-- ST3: an illegal word faults and nothing ticks. -/
theorem test_unknown_no_tick :
    seen { boot 0xFFFF with dt := 9, st := 9 } (fun t => (t.fault, t.dt, t.st)) =
      some (.unknownOpcode 0xFFFF#16 0x200#16, 9#8, 9#8) := by decide

/-- ST4: a halted machine does not change. -/
theorem test_halted_step :
    seen { boot 0x6001 with fault := .unknownOpcode 0 0, dt := 9 } (fun t => (t.dt, t.pc, t.getV 0)) =
      some (9#8, 0x200#16, 0#8) := by decide

/-- R24: a faulting and a halted step use their inputs up too. -/
theorem test_no_copy_of_inputs :
    seen (withKeys State.reset [3] 0) (·.inputs) = some [] ∧
    seen (withKeys { State.reset with fault := .stackUnderflow 0 } [3] 0) (·.inputs) = some [] := by decide

/-- The second faulting run of P5: an empty ROM faults at its first step. -/
theorem test_empty_rom : seen State.reset (·.fault) = some (.unknownOpcode 0#16 0x200#16) := by decide

/-- S1, S4: pixel (0,0), then a second Pull. -/
theorem test_pull_once :
    (Display.reset.setPix 0 0 true).pull.1 = some (0, [0x80000000#32]) ∧
    (Display.reset.setPix 0 0 true).pull.2.pull.1 = none := by decide

/-- S2: pixel (63,31). -/
theorem test_pull_corner : (Display.reset.setPix 63 31 true).pull.1 = some (252, [1#32]) := by decide

/-- R190, R193: the ROM bytes at 0x200, with the font in place. -/
theorem test_reset_rom :
    (hostReset [0x22, 0x00] State.reset).mem.read 0x200 = 0x22#8 ∧
    (hostReset [0x22, 0x00] State.reset).mem.read 0x050 = 0xF0#8 := by decide

/-! Witnesses: for every obligation with hypotheses, named after it, concrete values that meet all of them; where it has several
clauses, values at the ends of each clause's range. -/

theorem witness_DecodedWordIsItsEncoding : decodeWord 0x00E0#16 = some .cls ∧ decodeWord 0x8AB6#16 = some (.shr 0xA 0xB) := by
  decide

/-- Both clauses: an instruction that completes, and one that faults. -/
theorem witness_StepRunsDecodedInstruction :
    (∃ (s t : State) (ins : Instr), s.fault = .none ∧ s.pc.toNat ≤ 0xFFE ∧
      decodeWord (s.mem.read s.pc.toNat ++ s.mem.read (s.pc.toNat + 1)) = some ins ∧ exec ins s = .next t ∧ t.fault = .none) ∧
    ∃ (s t : State) (ins : Instr), s.fault = .none ∧ s.pc.toNat ≤ 0xFFE ∧
      decodeWord (s.mem.read s.pc.toNat ++ s.mem.read (s.pc.toNat + 1)) = some ins ∧ exec ins s = .next t ∧ t.fault ≠ .none :=
  ⟨⟨boot 0x6005, _, .ldImm 0 5, by decide, by decide, by decide, rfl, by decide⟩,
    boot 0x00EE, _, .ret, by decide, by decide, by decide, rfl, by decide⟩

theorem witness_HaltedMachineOnlyLeavesByReset :
    (State.reset.raise (.stackUnderflow 0x200#16)).fault ≠ .none ∧ (List.replicate 3584 0#8).length ≤ 3584 :=
  ⟨by decide, Nat.le_of_eq List.length_replicate⟩

/-- The three clauses at the ends of their ranges. -/
theorem witness_FetchSucceedsUpToFFE :
    (({ State.reset with pc := 0xFFE#16 } : State).fetchWord = .ok 0#16) ∧
    seen { State.reset with pc := 0xFFF#16 } (·.fault) = some (.addressFault 0x1000 .fetch 0xFFF#16) ∧
    seen { State.reset with pc := 0x1000#16 } (·.fault) = some (.addressFault 0x1000 .fetch 0x1000#16) ∧
    seen { State.reset with pc := 0xFFFF#16 } (·.fault) = some (.addressFault 0xFFFF .fetch 0xFFFF#16) := by decide

theorem witness_UnknownWordFaults :
    State.reset.fault = .none ∧ State.reset.pc.toNat ≤ 0xFFE ∧
    wordWellFormed (State.reset.mem.read State.reset.pc.toNat ++ State.reset.mem.read (State.reset.pc.toNat + 1)) = false := by
  decide

theorem witness_FaultingStepChangesOnlyFault :
    ∃ t, State.reset.fault = .none ∧ step State.reset = .next t ∧ t.fault ≠ .none := ⟨_, by decide, rfl, by decide⟩

/-- An ordinary completed step, and one of each timer load. -/
theorem witness_TimersCountDownUnlessLoaded :
    seen { boot 0x6005 with dt := 9, st := 0 } (fun t => (t.fault, t.dt, t.st)) = some (.none, 8#8, 0#8) ∧
    seen ((boot 0xF015).setV 0 7) (fun t => (t.fault, t.dt)) = some (.none, 6#8) ∧
    seen ((boot 0xF018).setV 0 7) (fun t => (t.fault, t.st)) = some (.none, 6#8) := by decide

/-- Every instruction that can fault does, with its own kind. -/
theorem witness_EachInstructionHasOneFaultKind :
    let at' (i : Word) : State := { State.reset with i := i, sp := 16 }.setV 0 0x10
    let fault (ins : Instr) (s : State) : Option Nat := (nextOf (exec ins s)).map (·.fault.code)
    fault (.call 0) (at' 0) = some 3 ∧ fault .ret State.reset = some 4 ∧ fault (.skp 0) (at' 0) = some 5 ∧
    fault (.sknp 0) (at' 0) = some 5 ∧ fault (.drw 0 0 1) (at' 0x1000) = some 2 ∧ fault (.ldB 0) (at' 0xFFE) = some 2 ∧
    fault (.ldMemVx 0) (at' 0x1000) = some 2 ∧ fault (.ldVxMem 1) (at' 0xFFF) = some 2 := by decide

/-- A completed, a faulting and a halted step, and the host's step. -/
theorem witness_EveryStepUsesUpItsInput :
    (∃ t, step (boot 0x6005) = .next t) ∧ (∃ t, step State.reset = .next t) ∧
    (∃ t, step { State.reset with fault := .stackUnderflow 0 } = .next t) ∧
    ∃ t, hostStep ⟨Vector.replicate 16 true, 254⟩ State.reset = .next t := ⟨⟨_, rfl⟩, ⟨_, rfl⟩, ⟨_, rfl⟩, _, rfl⟩

theorem witness_StepKeepsInvariant :
    ∃ t, ({ boot 0xD011 with i := 0xFFF } : State).inv = true ∧ step { boot 0xD011 with i := 0xFFF } = .next t :=
  ⟨_, by decide, rfl⟩

theorem witness_InstructionsWriteOnlyTheirWriteSet :
    ∃ t, State.reset.mem.wf = true ∧ exec (.ldB 3) State.reset = .next t := ⟨_, by decide, rfl⟩

/-- An instruction that reads neither input, and one of each kind that reads one. -/
theorem witness_InputsReadOnlyByTheirInstructions :
    (∃ t, exec .cls { State.reset with inputs := [⟨Vector.replicate 16 true, 254⟩] } = .next t) ∧
    (∃ t, exec (.rnd 0 0) { State.reset with inputs := [⟨Vector.replicate 16 true, 254⟩] } = .next t) ∧
    ∃ t, exec (.skp 0) { State.reset with inputs := [⟨Vector.replicate 16 true, 254⟩] } = .next t :=
  ⟨⟨_, rfl⟩, ⟨_, rfl⟩, _, rfl⟩

/-- The clauses at SP = 0, 15 and 16. -/
theorem witness_CallPushesOwnAddress :
    State.reset.sp.val < 16 ∧ ({ State.reset with sp := 15 } : State).sp.val < 16 ∧
    ({ State.reset with sp := 16 } : State).sp.val = 16 := by decide

/-- The clauses at SP = 0, 1 and 16. -/
theorem witness_ReturnResumesAfterCall :
    State.reset.sp.val = 0 ∧ ({ State.reset with sp := 1 } : State).sp.val = (0 : Fin 16).val + 1 ∧
    ({ State.reset with sp := 16 } : State).sp.val = (15 : Fin 16).val + 1 := by decide

theorem witness_ReturnAfterCallComesBack :
    ∃ t, ({ State.reset with sp := 15 } : State).sp.val < 16 ∧
      exec (.call 0xABC) { State.reset with sp := 15 } = .next t ∧ t.sp = t.sp ∧ t.stack = t.stack := ⟨_, by decide, rfl, rfl, rfl⟩

/-- AddSetsCarry, SubSetsNotBorrow, SubnSetsNotBorrow, ShiftRightHalves, ShiftLeftDoubles: the clauses x not F and x = F. -/
theorem witness_flag_instructions : (0xE#4 : Reg) ≠ vF ∧ (0xF#4 : Reg) = vF := by decide

/-- An input is pending, at the highest random byte. -/
theorem witness_RandomByteIsMasked :
    ∃ inp rest, (withKeys State.reset [] 254).inputs = inp :: rest ∧ inp.rnd.val = 254 := ⟨_, _, rfl, by decide⟩

/-- The row bytes of a sprite at the top of memory; n = 0 with I anywhere; and both collision clauses: a lit and a dark pixel. -/
theorem witness_DrawXorsSpriteAndReportsCollision :
    ((1#4 : Nibble).toNat = 0 ∨ ({ State.reset with i := 0xFFF } : State).i.toNat + (1#4 : Nibble).toNat ≤ 0x1000) ∧
    ((0#4 : Nibble).toNat = 0 ∨ ({ State.reset with i := 0xFFFF } : State).i.toNat + (0#4 : Nibble).toNat ≤ 0x1000) ∧
    spriteCollides 0 0 [0x80#8] (Display.clear true) ∧ ¬ spriteCollides 0 0 [] Display.reset :=
  ⟨by decide, by decide, ⟨0, 0, by decide, by decide⟩, by rintro ⟨px, py, h, -⟩; simp [spriteAt] at h⟩

theorem witness_DrawPastMemoryEndFaults :
    ((1#4 : Nibble).toNat ≠ 0 ∧ 0x1000 < ({ State.reset with i := 0x1000 } : State).i.toNat + (1#4 : Nibble).toNat) ∧
    ((2#4 : Nibble).toNat ≠ 0 ∧ 0x1000 < ({ State.reset with i := 0xFFF } : State).i.toNat + (2#4 : Nibble).toNat) := by decide

/-- n = 0, and n = 1 with a range pending before; the box of a sprite at (0, 0) covers pixel (7, 0). -/
theorem witness_DrawDirtiesTheBox :
    (0#4 : Nibble).toNat = 0 ∧ ((1#4 : Nibble).toNat ≠ 0 ∧ 0xFFF + (1#4 : Nibble).toNat ≤ 0x1000) ∧
    (Display.clear false).dirty = true ∧ spriteAt 0 0 [0#8] 7 0 ≠ none := by decide

/-- The glyph of 0 drawn twice on a dark display, with both the hypotheses and the clauses of the second draw. -/
theorem witness_DrawingTwiceRestoresDisplay :
    let s : State := { State.reset with i := 0x050 }
    ∃ t u, ((0xE#4 : Reg) ≠ vF ∧ s.i.toNat + (1#4 : Nibble).toNat ≤ 0x1000) ∧
      exec (.drw 0xE 0xE 1) s = .next t ∧ exec (.drw 0xE 0xE 1) t = .next u ∧
      s.mem.read (s.i.toNat + 0) ≠ 0#8 ∧ t.getV vF = 0#8 ∧ s.mem.read 0x200 = 0#8 :=
  ⟨_, _, by decide, rfl, rfl, by decide, by decide, by decide⟩

theorem witness_PullDrainsDirtyRange :
    State.reset.display.dirty = false ∧
    ((Display.reset.setPix 63 31 true).dirty = true ∧
      (Display.reset.setPix 63 31 true).dmin ≤ (Display.reset.setPix 63 31 true).dmax) ∧
    ((Display.clear false).dirty = true ∧ (Display.clear false).dmin ≤ (Display.clear false).dmax) := by decide

/-- SkipIfKeyPressed, SkipIfKeyNotPressed: the clauses at Vx = 0, 15, 16 and 255. -/
theorem witness_key_tests :
    (State.reset.getV 0).toNat = (0 : Fin 16).val ∧ ((State.reset.setV 0 15).getV 0).toNat = (15 : Fin 16).val ∧
    15 < ((State.reset.setV 0 16).getV 0).toNat ∧ 15 < ((State.reset.setV 0 255).getV 0).toNat := by decide

/-- The least pressed key is 0, or 15; or no key is pressed. -/
theorem witness_KeyWaitLatchesLowestKey :
    (withKeys State.reset [0, 7] 0).input.key[0] = true ∧
    ((withKeys State.reset [15] 0).input.key[15] = true ∧
      ∀ j : Fin 16, j < 15 → (withKeys State.reset [15] 0).input.key[j] = false) ∧
    ∀ j : Fin 16, (withKeys State.reset [] 0).input.key[j] = false := by decide

theorem witness_WaitingStepTicksTimers :
    let s := withKeys (boot 0xF10A) [] 0
    s.fault = .none ∧ s.pc.toNat ≤ 0xFFE ∧
      s.mem.read s.pc.toNat ++ s.mem.read (s.pc.toNat + 1) = 0xF#4 ++ (0x1#4 ++ 0x0A#8) ∧
      ∀ j : Fin 16, s.input.key[j] = false := by decide

/-- DelayTimerIsReadBeforeTick and TimersAreLoadedThenTicked: the three words at PC, the beep with Vx = 1 and 2. -/
theorem witness_timer_steps :
    ((boot 0xF207).mem.read 0x200 ++ (boot 0xF207).mem.read 0x201 = 0xF#4 ++ (0x2#4 ++ 0x07#8)) ∧
    ((boot 0xF015).mem.read 0x200 ++ (boot 0xF015).mem.read 0x201 = 0xF#4 ++ (0x0#4 ++ 0x15#8)) ∧
    ((boot 0xF018).mem.read 0x200 ++ (boot 0xF018).mem.read 0x201 = 0xF#4 ++ (0x0#4 ++ 0x18#8)) ∧
    ((boot 0xF018).fault = .none ∧ (boot 0xF018).pc.toNat ≤ 0xFFE) := by decide

/-- The clauses at I = 0xFFD and 0xFFE, on a canonical memory that lists a byte. -/
theorem witness_BcdStoresThreeDigits :
    (boot 0xF033).mem.wf = true ∧ (0xFFD#16 : Word).toNat + 2 ≤ 0xFFF ∧ 0xFFF < (0xFFE#16 : Word).toNat + 2 := by decide

/-- BlockStoreWritesRegisters, BlockLoadReadsRegisters: the clauses at I + x = 0xFFF and 0x1000. -/
theorem witness_block_transfers :
    (boot 0xFF55).mem.wf = true ∧ (0xFF0#16 : Word).toNat + (0xF#4 : Reg).toNat ≤ 0xFFF ∧
    0xFFF < (0xFF1#16 : Word).toNat + (0xF#4 : Reg).toNat := by decide

theorem witness_BlockLoadUndoesBlockStore :
    let s : State := { State.reset with i := 0xFF0 }
    ∃ t, s.mem.wf = true ∧ s.i.toNat + (0xF#4 : Reg).toNat ≤ 0xFFF ∧ exec (.ldMemVx 0xF) s = .next t ∧ t.i = t.i ∧ t.mem = t.mem :=
  ⟨_, by decide, by decide, rfl, rfl, rfl⟩

theorem witness_MemoryReadsWhatWasWritten : Memory.wf [(0x300, 1#8)] = true ∧ 4095 < 4096 ∧ 0 < 4096 := by decide

theorem witness_StoredWordIsFetched :
    ({ State.reset with pc := 0xFFE } : State).mem.wf = true ∧ ({ State.reset with pc := 0xFFE } : State).pc.toNat ≤ 0xFFE := by
  decide

/-- ResetGivesInitialState, OversizedRomHalts: the longest image that fits, and one byte more. -/
theorem witness_rom_sizes : (List.replicate 3584 0#8).length ≤ 3584 ∧ 3584 < (List.replicate 3585 0#8).length :=
  ⟨Nat.le_of_eq List.length_replicate, Nat.lt_of_lt_of_eq (by decide) List.length_replicate.symm⟩

end Sys2Proof.Tests
end

section
/-! What one step can end as, and what the end of a step leaves unchanged. -/

namespace Sys2Proof.Machine

/-! ## The end of a step -/

/-- The end of a step changes at most the timers and the model's own fields. -/
theorem State.afterExec_eq (t : State) : t.afterExec = t.consumeInput ∨ t.afterExec = t.tick.consumeInput := by
  unfold State.afterExec
  split
  · exact .inl rfl
  · exact .inr rfl

@[simp] theorem State.afterExec_mem (t : State) : t.afterExec.mem = t.mem := by
  rcases t.afterExec_eq with h | h <;> rw [h] <;> rfl

@[simp] theorem State.afterExec_display (t : State) : t.afterExec.display = t.display := by
  rcases t.afterExec_eq with h | h <;> rw [h] <;> rfl

@[simp] theorem State.afterExec_inputs (t : State) : t.afterExec.inputs = t.inputs.tail := by
  rcases t.afterExec_eq with h | h <;> rw [h] <;> rfl

@[simp] theorem State.afterExec_stepNo (t : State) : t.afterExec.stepNo = t.stepNo + 1 := by
  rcases t.afterExec_eq with h | h <;> rw [h] <;> rfl

/-- A completed step is Execute's next state, ended. -/
theorem completeStep_eq_next {o : Host.Outcome State Fault Refusal} {t : State} (h : completeStep o = .next t) :
    ∃ u, o = .next u ∧ t = u.afterExec := by
  cases o with
  | next u => cases h; exact ⟨u, rfl, rfl⟩
  | fault r => cases h
  | refused r => cases h

/-- All that a step can be (R70, R76, R77): the halted machine's, a fault of fetch or decode, or an executed instruction. -/
theorem step_cases {s t : State} (h : step s = .next t) :
    (s.fault ≠ .none ∧ t = s.consumeInput) ∨
    (s.fault = .none ∧ ∃ f, s.fetchInstr = .error f ∧ t = (s.raise f).consumeInput) ∨
    (s.fault = .none ∧ ∃ ins u, s.fetchInstr = .ok ins ∧ exec ins s = .next u ∧ t = u.afterExec) := by
  by_cases hf : s.fault = .none
  · rw [step_of_running hf] at h
    cases hi : s.fetchInstr with
    | error f =>
      rw [hi] at h
      cases h
      exact .inr (.inl ⟨hf, f, rfl, rfl⟩)
    | ok ins =>
      rw [hi] at h
      obtain ⟨u, hu, ht⟩ := completeStep_eq_next h
      exact .inr (.inr ⟨hf, ins, u, rfl, hu, ht⟩)
  · rw [step_of_halted hf] at h
    cases h
    exact .inl ⟨hf, rfl⟩

end Sys2Proof.Machine
end

section
/-! The dirty range stays a range (spec/10_state.md R20): a property of the display alone, kept by every drawing. -/

namespace Sys2Proof.Machine

/-- A pending dirty range is a range (R20). -/
def Display.RangeOk (d : Display) : Prop := d.dirty = true → d.dmin ≤ d.dmax

/-- The invariant, part by part. -/
theorem State.inv_iff (s : State) : s.inv = true ↔ s.mem.wf = true ∧ s.display.RangeOk := by
  unfold State.inv Display.RangeOk
  cases s.display.dirty <;> simp

/-- The invariant speaks of memory and display only. -/
theorem State.inv_congr {s t : State} (hm : t.mem = s.mem) (hd : t.display = s.display) : t.inv = s.inv := by
  simp only [State.inv, hm, hd]

@[simp] theorem State.inv_consumeInput (s : State) : s.consumeInput.inv = s.inv := State.inv_congr rfl rfl

@[simp] theorem State.inv_raise (s : State) (f : FaultLatch) : (s.raise f).inv = s.inv := State.inv_congr rfl rfl

@[simp] theorem State.inv_afterExec (t : State) : t.afterExec.inv = t.inv :=
  State.inv_congr t.afterExec_mem t.afterExec_display

theorem Display.rangeOk_reset : Display.reset.RangeOk := fun h => absurd h Bool.false_ne_true

theorem Display.rangeOk_clear (b : Bool) : (Display.clear b).RangeOk := fun _ => Fin.zero_le _

/-- The word just touched lies in the range, so the range is one, whatever it was before. -/
theorem Display.rangeOk_setPix (d : Display) (x : Fin 64) (y : Fin 32) (b : Bool) : (d.setPix x y b).RangeOk := by
  intro _
  rw [Display.setPix_dmin, Display.setPix_dmax]
  cases d.dirty with
  | false => exact le_refl _
  | true => exact le_trans (min_le_right _ _) (le_max_right _ _)

/-- Each of the eight pixels leaves a range. -/
theorem rangeOk_drawByte (x0 : Byte) (py : Fin 32) (row : Byte) {g : Drawing} (hg : g.display.RangeOk) :
    (drawByte x0 py row g).display.RangeOk :=
  List.foldlRecOn (motive := fun g : Drawing => g.display.RangeOk) _ _ hg
    fun g _ _ _ => Display.rangeOk_setPix g.display _ _ _

theorem rangeOk_drawRows (x0 y0 : Byte) (rows : List Byte) :
    ∀ (r : Nat) (g : Drawing), g.display.RangeOk → (drawRows x0 y0 r rows g).display.RangeOk := by
  induction rows with
  | nil => exact fun _ _ hg => hg
  | cons row rows ih => exact fun r g hg => ih (r + 1) _ (rangeOk_drawByte x0 _ row hg)

/-- A sprite with no rows leaves the display as it was, so the range before must be one (R127). -/
theorem rangeOk_drawSprite (x0 y0 : Byte) (rows : List Byte) {d : Display} (hd : d.RangeOk) :
    (drawSprite x0 y0 rows d).display.RangeOk := rangeOk_drawRows x0 y0 rows 0 _ hd

end Sys2Proof.Machine
end

section
/-! What Execute may write (spec/10_state.md R28): one relation between the state before and after, one rule for each update of the
state, one case split over the 34 instructions. The frame and the invariant both follow from it. -/

namespace Sys2Proof.Machine

/-- `t` differs from `s` in nothing but PC, the latch and what `w` lists. Memory and display are told as data, not by what they
read as: the bytes of `w` were stored from the old I on, and the new dirty range is a range if the old one was. -/
structure WritesOnly (w : WriteSet) (s t : State) : Prop where
  regs : SameV s t w.regs
  index : w.index = false → t.i = s.i
  sp : w.sp = false → t.sp = s.sp
  stack : w.stack = false → t.stack = s.stack
  delay : w.delay = false → t.dt = s.dt
  sound : w.sound = false → t.st = s.st
  mem : t.mem = s.mem ∨ ∃ bs : List Byte, bs.length = w.memLen ∧ s.i.toNat + bs.length ≤ 0x1000 ∧
    t.mem = s.mem.writeBytes s.i.toNat bs
  display : w.display = false → t.display = s.display
  dirtyRange : s.display.RangeOk → t.display.RangeOk
  inputs : t.inputs = s.inputs
  stepNo : t.stepNo = s.stepNo

namespace WritesOnly

/-! ## What it says -/

/-- Bytes outside the stored ones read the same. -/
theorem sameMemOutside {w : WriteSet} {s t : State} (h : WritesOnly w s t) (hwf : s.mem.wf = true) :
    SameMemOutside s t s.i.toNat w.memLen := by
  intro a ha
  rcases h.mem with hm | ⟨bs, hlen, hfit, hm⟩
  · rw [hm]
  · rw [hm, Memory.read_writeBytes a hwf hfit, dif_neg (by omega)]

theorem mem_wf {w : WriteSet} {s t : State} (h : WritesOnly w s t) (hwf : s.mem.wf = true) : t.mem.wf = true := by
  rcases h.mem with hm | ⟨bs, -, hfit, hm⟩
  · rw [hm, hwf]
  · rw [hm, Memory.wf_writeBytes hwf hfit]

theorem inv {w : WriteSet} {s t : State} (h : WritesOnly w s t) (hs : s.inv = true) : t.inv = true := by
  obtain ⟨hwf, hrange⟩ := s.inv_iff.mp hs
  exact t.inv_iff.mpr ⟨h.mem_wf hwf, h.dirtyRange hrange⟩

/-! ## One rule for each update -/

theorem refl (w : WriteSet) (s : State) : WritesOnly w s s where
  regs _ _ := rfl
  index _ := rfl
  sp _ := rfl
  stack _ := rfl
  delay _ := rfl
  sound _ := rfl
  mem := .inl rfl
  display _ := rfl
  dirtyRange h := h
  inputs := rfl
  stepNo := rfl

variable {w : WriteSet} {s t : State}

theorem raise (h : WritesOnly w s t) (f : FaultLatch) : WritesOnly w s (t.raise f) := { h with }

theorem setPc (h : WritesOnly w s t) (p : Word) : WritesOnly w s { t with pc := p } := { h with }

theorem finish (h : WritesOnly w s t) (o : PcOutcome) : WritesOnly w s (t.finish o) := h.setPc _

theorem skipIf (h : WritesOnly w s t) (c : Bool) : WritesOnly w s (t.skipIf c) := h.finish _

theorem setV (h : WritesOnly w s t) {x : Reg} (hx : x ∈ w.regs) (b : Byte) : WritesOnly w s (t.setV x b) :=
  { h with
    regs := fun r hr => by
      have hne : r ≠ x := fun e => hr (e ▸ hx)
      rw [State.getV_setV_ne t b hne, h.regs r hr] }

theorem setFlag (h : WritesOnly w s t) (hx : vF ∈ w.regs) (c : Bool) : WritesOnly w s (t.setFlag c) := h.setV hx _

theorem loadRegs {bs : List Byte} : ∀ {t : State} {k : Nat}, WritesOnly w s t →
    (∀ j, k ≤ j → j < k + bs.length → BitVec.ofNat 4 j ∈ w.regs) → WritesOnly w s (t.loadRegs k bs) := by
  induction bs with
  | nil => exact fun h _ => h
  | cons b bs ih =>
    intro t k h hk
    simp only [List.length_cons] at hk
    exact ih (h.setV (hk k (le_refl k) (by omega)) b) fun j hj hj' => hk j (by omega) (by omega)

theorem setIndex (h : WritesOnly w s t) (hw : w.index = true) (a : Word) : WritesOnly w s { t with i := a } :=
  { h with index := fun hf => nomatch hw.symm.trans hf }

theorem setDelay (h : WritesOnly w s t) (hw : w.delay = true) (b : Byte) : WritesOnly w s { t with dt := b } :=
  { h with delay := fun hf => nomatch hw.symm.trans hf }

theorem setSound (h : WritesOnly w s t) (hw : w.sound = true) (b : Byte) : WritesOnly w s { t with st := b } :=
  { h with sound := fun hf => nomatch hw.symm.trans hf }

theorem setDisplay (h : WritesOnly w s t) (hw : w.display = true) {d : Display} (hd : s.display.RangeOk → d.RangeOk) :
    WritesOnly w s { t with display := d } :=
  { h with
    display := fun hf => nomatch hw.symm.trans hf
    dirtyRange := hd }

theorem push (hsp : w.sp = true) (hst : w.stack = true) {v : Word} (hp : s.push v = .ok t) : WritesOnly w s t := by
  unfold State.push at hp
  split at hp <;> cases hp
  exact { refl w s with
    sp := fun hf => nomatch hsp.symm.trans hf
    stack := fun hf => nomatch hst.symm.trans hf }

/-- Pop leaves the entry in place (R45). -/
theorem pop (hsp : w.sp = true) {a : Word} (hp : s.pop = .ok (a, t)) : WritesOnly w s t := by
  unfold State.pop at hp
  split at hp <;> cases hp
  exact { refl w s with sp := fun hf => nomatch hsp.symm.trans hf }

theorem writeBlock {bs : List Byte} (hlen : bs.length = w.memLen) (hb : s.writeBlock s.iAddr bs = .ok t) :
    WritesOnly w s t := by
  rw [State.writeBlock_eq] at hb
  split at hb
  case isTrue hfit =>
    cases hb
    refine { refl w s with mem := ?_ }
    rcases hfit with h0 | hfit
    · rw [List.length_eq_zero_iff.mp h0]
      exact .inl rfl
    · exact .inr ⟨bs, hlen, hfit, rfl⟩
  case isFalse => cases hb

theorem resultThenFlag {x : Reg} (hx : x ∈ w.regs) (hF : vF ∈ w.regs) (r : Byte) (flag : Bool) :
    WritesOnly w s (s.resultThenFlag x r flag) := (((refl w s).setV hx r).setFlag hF flag).finish _

theorem flagThenResult {x : Reg} (hx : x ∈ w.regs) (hF : vF ∈ w.regs) (flag : Bool) (f : Byte → Byte) :
    WritesOnly w s (s.flagThenResult x flag f) := (((refl w s).setFlag hF flag).setV hx _).finish _

theorem keyWait {x : Reg} (hx : x ∈ w.regs) : WritesOnly w s (s.keyWait x) := by
  unfold State.keyWait
  split
  · exact ((refl w s).setV hx _).finish _
  · exact (refl w s).finish _

end WritesOnly

/-- Execute writes nothing outside the row of R28. -/
theorem exec_writesOnly {ins : Instr} {s t : State} (h : exec ins s = .next t) : WritesOnly (writeSet ins) s t := by
  cases ins
  case cls =>
    cases h
    exact ((WritesOnly.refl _ s).setDisplay rfl fun _ => Display.rangeOk_clear false).finish _
  case ret =>
    simp only [exec, execRet] at h
    split at h
    · cases h; exact (WritesOnly.refl _ s).raise _
    next hp => cases h; exact ((WritesOnly.pop rfl hp).setPc _).finish _
  case call addr =>
    simp only [exec, execCall] at h
    split at h
    · cases h; exact (WritesOnly.refl _ s).raise _
    next hp => cases h; exact (WritesOnly.push rfl rfl hp).finish _
  case jp | jpV0 => cases h; exact (WritesOnly.refl _ s).finish _
  case seImm | sneImm | seReg | sneReg => cases h; exact (WritesOnly.refl _ s).skipIf _
  case skp | sknp =>
    simp only [exec, execSkp, execSknp] at h
    split at h <;> cases h
    · exact (WritesOnly.refl _ s).raise _
    · exact (WritesOnly.refl _ s).skipIf _
  case ldImm | addImm | ldReg | orReg | andReg | xorReg | rnd | ldVxDt =>
    cases h
    exact ((WritesOnly.refl _ s).setV (List.mem_singleton_self _) _).finish _
  case ldVxK x => cases h; exact WritesOnly.keyWait (List.mem_singleton_self x)
  case addReg | subReg | subnReg =>
    cases h
    exact WritesOnly.resultThenFlag List.mem_cons_self (List.mem_cons_of_mem _ List.mem_cons_self) _ _
  case shr | shl =>
    cases h
    exact WritesOnly.flagThenResult List.mem_cons_self (List.mem_cons_of_mem _ List.mem_cons_self) _ _
  case ldI | addI | ldF => cases h; exact ((WritesOnly.refl _ s).setIndex rfl _).finish _
  case ldDtVx x => cases h; exact ((WritesOnly.refl _ s).setDelay rfl _).finish _
  case ldStVx x => cases h; exact ((WritesOnly.refl _ s).setSound rfl _).finish _
  case drw x y n =>
    simp only [exec, execDrw] at h
    split at h <;> cases h
    · exact (WritesOnly.refl _ s).raise _
    · exact (((WritesOnly.refl _ s).setDisplay rfl (rangeOk_drawSprite _ _ _)).setFlag
        (List.mem_singleton_self vF) _).finish _
  case ldB x =>
    simp only [exec, execLdB] at h
    split at h
    · cases h; exact (WritesOnly.refl _ s).raise _
    next hb => cases h; exact (WritesOnly.writeBlock rfl hb).finish _
  case ldMemVx x =>
    simp only [exec, execLdMemVx] at h
    split at h
    · cases h; exact (WritesOnly.refl _ s).raise _
    next hb => cases h; exact (WritesOnly.writeBlock (s.regBlock_length x) hb).finish _
  case ldVxMem x =>
    simp only [exec, execLdVxMem] at h
    split at h
    · cases h; exact (WritesOnly.refl _ s).raise _
    next bytes hb =>
      cases h
      rw [State.readBlock_eq] at hb
      split at hb <;> cases hb
      refine ((WritesOnly.refl _ s).loadRegs fun j _ hj => ?_).finish _
      exact List.mem_map_of_mem (List.mem_range.mpr (by simpa using hj))

end Sys2Proof.Machine
end

section
/-! The statements about the invariant, the inputs' consumption and the write sets (spec/10_state.md R20, R24, R28, R29). -/

namespace Sys2Proof.Machine

/-- Settles O16: fetch, decode and the step's end touch neither memory nor display, and Execute keeps the invariant by its write
set. -/
theorem stepKeepsInvariant : Obligations.StepKeepsInvariant := by
  intro s t hs h
  rcases step_cases h with ⟨-, rfl⟩ | ⟨-, f, -, rfl⟩ | ⟨-, ins, u, -, hu, rfl⟩
  · rwa [State.inv_consumeInput]
  · rwa [State.inv_consumeInput, State.inv_raise]
  · rw [State.inv_afterExec]
    exact (exec_writesOnly hu).inv hs

/-- Settles O17: memory lists nothing and the display is clean. -/
theorem resetMeetsInvariant : Obligations.ResetMeetsInvariant :=
  State.reset.inv_iff.mpr ⟨Memory.wf_reset, Display.rangeOk_reset⟩

/-- Every step takes the first pair off the queue and counts one (R24). -/
theorem step_inputs {s t : State} (h : step s = .next t) : t.inputs = s.inputs.tail ∧ t.stepNo = s.stepNo + 1 := by
  rcases step_cases h with ⟨-, rfl⟩ | ⟨-, f, -, rfl⟩ | ⟨-, ins, u, -, hu, rfl⟩
  · exact ⟨rfl, rfl⟩
  · exact ⟨rfl, rfl⟩
  · rw [State.afterExec_inputs, State.afterExec_stepNo, (exec_writesOnly hu).inputs, (exec_writesOnly hu).stepNo]
    exact ⟨rfl, rfl⟩

/-- Settles O13: the host's Step starts from a queue of one pair, so the tail is empty. -/
theorem everyStepUsesUpItsInput : Obligations.EveryStepUsesUpItsInput :=
  ⟨fun _ _ h => step_inputs h, fun _ _ _ h => (step_inputs h).1⟩

/-- Settles O18, from the write sets of Execute. -/
theorem instructionsWriteOnlyTheirWriteSet : Obligations.InstructionsWriteOnlyTheirWriteSet := by
  intro ins s t hwf h
  have hw := exec_writesOnly h
  exact ⟨hw.regs, hw.index, hw.sp, hw.stack, hw.delay, hw.sound, hw.sameMemOutside hwf, hw.display, hw.inputs, hw.stepNo⟩

end Sys2Proof.Machine
end

section
/-! What Execute reads of the step's inputs (spec/10_state.md R28): two runs that differ in the pending inputs only. -/

namespace Sys2Proof.Machine

/-- The state with other pending inputs. -/
def State.setInputs (s : State) (q : List StepInput) : State := { s with inputs := q }

/-- The instructions whose row of R28 reads the keypad. -/
def readsKeypad : Instr → Bool
  | .skp _ | .sknp _ | .ldVxK _ => true
  | _ => false

/-- The instruction whose row of R28 reads the random byte. -/
def readsRandom : Instr → Bool
  | .rnd _ _ => true
  | _ => false

theorem readsKeypad_eq_false {ins : Instr} (h : ∀ x, ins ≠ .skp x ∧ ins ≠ .sknp x ∧ ins ≠ .ldVxK x) :
    readsKeypad ins = false := by
  cases ins
  case skp x => exact absurd rfl (h x).1
  case sknp x => exact absurd rfl (h x).2.1
  case ldVxK x => exact absurd rfl (h x).2.2
  all_goals rfl

theorem readsRandom_eq_false {ins : Instr} (h : ∀ x kk, ins ≠ .rnd x kk) : readsRandom ins = false := by
  cases ins
  case rnd x kk => exact absurd rfl (h x kk)
  all_goals rfl

/-! ## The shared operations under other pending inputs -/

@[simp] theorem State.setInputs_pc (s : State) (q : List StepInput) : (s.setInputs q).pc = s.pc := rfl
@[simp] theorem State.setInputs_iAddr (s : State) (q : List StepInput) : (s.setInputs q).iAddr = s.iAddr := rfl
@[simp] theorem State.setInputs_getV (s : State) (q : List StepInput) (x : Reg) : (s.setInputs q).getV x = s.getV x := rfl
@[simp] theorem State.setInputs_regBlock (s : State) (q : List StepInput) (x : Reg) :
    (s.setInputs q).regBlock x = s.regBlock x := rfl

@[simp] theorem State.setInputs_readBlock (s : State) (q : List StepInput) (a n : Nat) :
    (s.setInputs q).readBlock a n = s.readBlock a n := rfl

@[simp] theorem State.setInputs_writeBlock (s : State) (q : List StepInput) (a : Nat) (bs : List Byte) :
    (s.setInputs q).writeBlock a bs = (s.writeBlock a bs).map (·.setInputs q) := by
  simp only [State.writeBlock_eq]
  split <;> rfl

@[simp] theorem State.setInputs_push (s : State) (q : List StepInput) (v : Word) :
    (s.setInputs q).push v = (s.push v).map (·.setInputs q) := by
  by_cases h : s.sp.val < 16
  · rw [State.push_of_lt v h]
    exact State.push_of_lt (s := s.setInputs q) v h
  · have hfull : s.sp.val = 16 := by omega
    rw [State.push_full v hfull]
    exact State.push_full (s := s.setInputs q) v hfull

@[simp] theorem State.setInputs_pop (s : State) (q : List StepInput) :
    (s.setInputs q).pop = s.pop.map fun p => (p.1, p.2.setInputs q) := by
  by_cases h : 0 < s.sp.val
  · rw [State.pop_of_pos h]
    exact State.pop_of_pos (s := s.setInputs q) h
  · have hempty : s.sp.val = 0 := by omega
    rw [State.pop_empty hempty]
    exact State.pop_empty (s := s.setInputs q) hempty

@[simp] theorem State.setInputs_loadRegs (q : List StepInput) (bs : List Byte) :
    ∀ (s : State) (k : Nat), (s.setInputs q).loadRegs k bs = (s.loadRegs k bs).setInputs q := by
  induction bs with
  | nil => exact fun _ _ => rfl
  | cons b bs ih => exact fun s k => ih (s.setV (BitVec.ofNat 4 k) b) (k + 1)

/-- The key test reads of the inputs the snapshot only. -/
theorem State.setInputs_keyTest {s : State} {q : List StepInput} (x : Reg) (hkey : (s.setInputs q).input.key = s.input.key) :
    (s.setInputs q).keyTest x = s.keyTest x := by
  simp only [State.keyTest, State.setInputs_getV, hkey, State.setInputs_pc]

/-- The key-wait reads of the inputs the snapshot only. -/
theorem State.setInputs_keyWait {s : State} {q : List StepInput} (x : Reg) (hkey : (s.setInputs q).input.key = s.input.key) :
    (s.setInputs q).keyWait x = (s.keyWait x).setInputs q := by
  unfold State.keyWait
  rw [hkey]
  split <;> rfl

/-- Execute reads the pending inputs only as its row of R28 says, and passes them on. -/
theorem exec_setInputs {ins : Instr} {s t : State} (q : List StepInput)
    (hkey : readsKeypad ins = true → (s.setInputs q).input.key = s.input.key)
    (hrnd : readsRandom ins = true → (s.setInputs q).input.rnd = s.input.rnd)
    (h : exec ins s = .next t) : exec ins (s.setInputs q) = .next (t.setInputs q) := by
  cases ins
  case ret =>
    simp only [exec, execRet, State.setInputs_pop] at h ⊢
    cases hp : s.pop <;> rw [hp] at h <;> cases h <;> rfl
  case call addr =>
    simp only [exec, execCall, State.setInputs_push, State.setInputs_pc] at h ⊢
    cases hp : s.push s.pc <;> rw [hp] at h <;> cases h <;> rfl
  case skp x | sknp x =>
    simp only [exec, execSkp, execSknp, State.setInputs_keyTest x (hkey rfl)] at h ⊢
    cases hk : s.keyTest x <;> rw [hk] at h <;> cases h <;> rfl
  case ldVxK x =>
    cases h
    exact congrArg _ (State.setInputs_keyWait x (hkey rfl))
  case rnd x kk =>
    cases h
    have hr : (s.setInputs q).rndByte = s.rndByte := by rw [State.rndByte, hrnd rfl, State.rndByte]
    simp only [exec, execRnd, hr]
    rfl
  case drw x y n =>
    simp only [exec, execDrw, State.setInputs_readBlock, State.setInputs_iAddr] at h ⊢
    cases hb : s.readBlock s.iAddr n.toNat <;> rw [hb] at h <;> cases h <;> rfl
  case ldB x =>
    simp only [exec, execLdB, State.setInputs_writeBlock, State.setInputs_iAddr, State.setInputs_getV] at h ⊢
    cases hb : s.writeBlock s.iAddr (bcdDigits (s.getV x)) <;> rw [hb] at h <;> cases h <;> rfl
  case ldMemVx x =>
    simp only [exec, execLdMemVx, State.setInputs_writeBlock, State.setInputs_iAddr, State.setInputs_regBlock] at h ⊢
    cases hb : s.writeBlock s.iAddr (s.regBlock x) <;> rw [hb] at h <;> cases h <;> rfl
  case ldVxMem x =>
    simp only [exec, execLdVxMem, State.setInputs_readBlock, State.setInputs_iAddr, State.setInputs_loadRegs] at h ⊢
    cases hb : s.readBlock s.iAddr (x.toNat + 1) <;> rw [hb] at h <;> cases h <;> rfl
  all_goals cases h; rfl

/-- Settles O19: the other run's pending pair agrees with the first one's on whatever the instruction reads. -/
theorem inputsReadOnlyByTheirInstructions : Obligations.InputsReadOnlyByTheirInstructions := by
  intro ins s t key key' r r' rest h
  refine ⟨fun hins => ?_, fun hins => ?_⟩
  · refine exec_setInputs (s := s.setInputs (⟨key, r⟩ :: rest)) (⟨key, r'⟩ :: rest) (fun _ => rfl) (fun hr => ?_) h
    exact nomatch (readsRandom_eq_false hins).symm.trans hr
  · refine exec_setInputs (s := s.setInputs (⟨key, r⟩ :: rest)) (⟨key', r⟩ :: rest) (fun hk => ?_) (fun _ => rfl) h
    exact nomatch (readsKeypad_eq_false hins).symm.trans hk

end Sys2Proof.Machine
end

section
/-! The statements about memory and the fetch (spec/20_memory.md R32 to R42). -/

namespace Sys2Proof.Machine

/-! ## Memory (R34, R36) -/

/-- Writing back the byte an address reads as changes no cell: both memories are canonical and read alike. -/
theorem Memory.write_read_self {m : Memory} {a : Nat} (h : m.wf = true) (ha : a < 0x1000) : m.write a (m.read a) = m := by
  refine Memory.ext (Memory.wf_write _ h ha) h fun c => ?_
  rw [Memory.read_write h]
  split
  next hc => rw [hc]
  next => rfl

/-- Settles O54: the canonical form is what makes a write of the byte already there give the same data, not only the same bytes. -/
theorem memoryReadsWhatWasWritten : Obligations.MemoryReadsWhatWasWritten := fun _ a b h ha =>
  ⟨Memory.wf_write b h ha, Memory.read_write h a b, Memory.write_read_self h ha⟩

/-! ## Fetch (R39) -/

/-- The fetch succeeds up to PC = 0xFFE, at any parity. -/
theorem State.fetchWord_of_le {s : State} (h : s.pc.toNat ≤ 0xFFE) :
    s.fetchWord = .ok (wordOfBytes (s.mem.read s.pc.toNat) (s.mem.read (s.pc.toNat + 1))) := by
  rw [State.fetchWord_eq, if_pos (by omega)]

/-- Above 0xFFE the fetch faults with the lowest offending address: 0x1000, or PC itself where it lies beyond. -/
theorem State.fetchWord_of_gt {s : State} (h : 0xFFE < s.pc.toNat) :
    s.fetchWord = .error (.addressFault (max s.pc.toNat 0x1000) .fetch s.pc) := by
  rw [State.fetchWord_eq, if_neg (by omega)]

/-- A fault of the fetch is the step's fault (R76). -/
theorem step_of_fetchWord_error {s : State} {f : FaultLatch} (hrun : s.fault = .none) (hf : s.fetchWord = .error f) :
    step s = .next (s.raise f).consumeInput := by
  have hi : s.fetchInstr = .error f := by rw [State.fetchInstr, hf]
  rw [step_of_running hrun, hi]

/-- A step with PC above 0xFFE takes the address fault and nothing else. -/
theorem step_of_pc_gt {s : State} (hrun : s.fault = .none) (h : 0xFFE < s.pc.toNat) :
    step s = .next (s.raise (.addressFault (max s.pc.toNat 0x1000) .fetch s.pc)).consumeInput :=
  step_of_fetchWord_error hrun (State.fetchWord_of_gt h)

/-- Settles O9: the two faulting ranges differ in which of PC and 0x1000 is the larger. -/
theorem fetchSucceedsUpToFFE : Obligations.FetchSucceedsUpToFFE := by
  intro s
  refine ⟨State.fetchWord_of_le, fun hrun hpc => ?_, fun hrun hpc => ?_⟩
  · have hmax : max s.pc.toNat 0x1000 = 0x1000 := by omega
    rw [step_of_pc_gt hrun (by omega), hmax]
    rfl
  · have hmax : max s.pc.toNat 0x1000 = s.pc.toNat := Nat.max_eq_left hpc
    rw [step_of_pc_gt hrun (by omega), hmax]
    rfl

/-! ## A stored word (R32, R33, R42) -/

/-- The two bytes of a stored word, read back. -/
theorem Memory.read_writeWord {m : Memory} {a : Nat} (hi lo : Byte) (h : m.wf = true) (ha : a ≤ 0xFFE) :
    (m.writeBytes a [hi, lo]).read a = hi ∧ (m.writeBytes a [hi, lo]).read (a + 1) = lo := by
  have hfit : a + [hi, lo].length ≤ 0x1000 := by simp only [List.length_cons, List.length_nil]; omega
  constructor <;> rw [Memory.read_writeBytes _ h hfit, dif_pos (by simp)] <;> simp

/-- Settles O55: the store passes the range check, and the fetch joins the two bytes it reads back. -/
theorem storedWordIsFetched : Obligations.StoredWordIsFetched := by
  intro s w hwf hpc
  obtain ⟨hhi, hlo⟩ := Memory.read_writeWord (hiByte w) (loByte w) hwf hpc
  refine ⟨{ s with mem := s.mem.writeBytes s.pc.toNat [hiByte w, loByte w] }, ?_, ?_⟩
  · rw [State.writeBlock_eq, if_pos (.inr (by simp only [List.length_cons, List.length_nil]; omega))]
  · rw [State.fetchWord_of_le (by exact hpc), hhi, hlo, wordOfBytes_hi_lo]

end Sys2Proof.Machine
end

section
/-! The encoding: the encoder and the decoder are inverse, and the decoder agrees with the mask and match table
(spec/30_encoding.md R51 to R61). -/

namespace Sys2Proof

/-! ## Decoding an encoded word (R53, R57) -/

/-- The decoder reads each operand back from the field of the word where the instruction's format puts it. -/
theorem decodeWord_encodeWord (ins : Instr) : decodeWord (encodeWord ins) = some ins := by
  cases ins with
  | cls | ret => rfl
  | jp | call | ldI | jpV0 | seImm | sneImm | ldImm | addImm | rnd | seReg | sneReg | drw => simp [encodeWord, decodeWord]
  | ldReg | orReg | andReg | xorReg | addReg | subReg | shr | subnReg | shl => simp [encodeWord, decodeWord, decodeAlu]
  | skp | sknp => simp [encodeWord, decodeWord, decodeKey]
  | ldVxDt | ldVxK | ldDtVx | ldStVx | addI | ldF | ldB | ldMemVx | ldVxMem => simp [encodeWord, decodeWord, decodeMisc]

/-- Decoding from bytes is decoding the word the first two make up. -/
theorem decode_cons_cons {hi lo : Byte} {ins : Instr} (rest : List Byte) (h : decodeWord (wordOfBytes hi lo) = some ins) :
    decode (hi :: lo :: rest) = .ok (ins, rest) := by
  rw [decode, h]

/-- Settles O1: the two bytes of the encoding make up its word again, and that word decodes to the instruction. -/
theorem decodeOfEncodeIsIdentity : Obligations.DecodeOfEncodeIsIdentity := fun ins rest =>
  decode_cons_cons rest (by rw [wordOfBytes_hi_lo, decodeWord_encodeWord])

/-! ## Encoding a decoded word (R53, R61) -/

theorem wordA_of_opField {w : Word} {op : BitVec 4} (h : opField w = op) : wordA op (addrField w) = w := h ▸ wordA_fields w

theorem wordXK_of_opField {w : Word} {op : BitVec 4} (h : opField w = op) : wordXK op (xField w) (kkField w) = w :=
  h ▸ wordXK_fields w

theorem wordXYN_of_opField {w : Word} {op n : BitVec 4} (h : opField w = op) (hn : nField w = n) :
    wordXYN op (xField w) (yField w) n = w :=
  h ▸ hn ▸ wordXYN_fields w

theorem encodeWord_of_decodeZ {w : Word} {ins : Instr} (h : decodeZ w = some ins) : encodeWord ins = w := by
  unfold decodeZ at h
  split at h
  next hw => cases h; exact hw.symm
  next =>
    split at h
    next hw => cases h; exact hw.symm
    next => cases h

theorem encodeWord_of_decodeAlu {x y : Reg} {n : Nibble} {ins : Instr} (h : decodeAlu x y n = some ins) :
    encodeWord ins = wordXYN 0x8#4 x y n := by
  unfold decodeAlu at h
  split at h <;> cases h <;> rfl

theorem encodeWord_of_decodeKey {x : Reg} {kk : Byte} {ins : Instr} (h : decodeKey x kk = some ins) :
    encodeWord ins = wordXK 0xE#4 x kk := by
  unfold decodeKey at h
  split at h <;> cases h <;> rfl

theorem encodeWord_of_decodeMisc {x : Reg} {kk : Byte} {ins : Instr} (h : decodeMisc x kk = some ins) :
    encodeWord ins = wordXK 0xF#4 x kk := by
  unfold decodeMisc at h
  split at h <;> cases h <;> rfl

theorem encodeWord_of_decodeWord {w : Word} {ins : Instr} (h : decodeWord w = some ins) : encodeWord ins = w := by
  unfold decodeWord at h
  split at h
  case h_1 => exact encodeWord_of_decodeZ h
  -- 1nnn, 2nnn, Annn, Bnnn
  case h_2 hop | h_3 hop | h_11 hop | h_12 hop => cases h; exact wordA_of_opField hop
  -- 3xkk, 4xkk, 6xkk, 7xkk, Cxkk
  case h_4 hop | h_5 hop | h_7 hop | h_8 hop | h_13 hop => cases h; exact wordXK_of_opField hop
  -- 5xy0, 9xy0
  case h_6 hop | h_10 hop =>
    split at h
    next hn => cases h; exact wordXYN_of_opField hop hn
    next => cases h
  -- the 0x8 family, then Dxyn, then the 0xE and the 0xF family
  case h_9 hop => exact (encodeWord_of_decodeAlu h).trans (wordXYN_of_opField hop rfl)
  case h_14 hop => cases h; exact wordXYN_of_opField hop rfl
  case h_15 hop => exact (encodeWord_of_decodeKey h).trans (wordXK_of_opField hop)
  case h_16 =>
    have hop : opField w = 0xF#4 := by
      simp only [imp_false] at *
      bv_omega
    exact (encodeWord_of_decodeMisc h).trans (wordXK_of_opField hop)

/-- Settles O2: in every arm of the decoder the word is built again from its fields. -/
theorem decodedWordIsItsEncoding : Obligations.DecodedWordIsItsEncoding := fun _ _ => encodeWord_of_decodeWord

/-! ## What the decoder's verdict depends on (R53, R55) -/

/-- The bits of a word, by its high nibble, that decide whether it decodes; the operand fields are the other bits. -/
def verdictMask (op : BitVec 4) : Word :=
  match op with
  | 0x0#4 => 0xFFFF#16
  | 0x5#4 | 0x8#4 | 0x9#4 => 0xF00F#16
  | 0xE#4 | 0xF#4 => 0xF0FF#16
  | _ => 0xF000#16

theorem opField_verdictMask : ∀ op : BitVec 4, opField (verdictMask op) = 0xF#4 := by decide

theorem opField_and_verdictMask (w : Word) (op : BitVec 4) : opField (w &&& verdictMask op) = opField w := by
  have hand : opField (w &&& verdictMask op) = opField w &&& opField (verdictMask op) := BitVec.extractLsb'_and
  rw [hand, opField_verdictMask]
  exact BitVec.and_allOnes

theorem nField_and_F00F (w : Word) : nField (w &&& 0xF00F#16) = nField w :=
  BitVec.extractLsb'_and.trans BitVec.and_allOnes

theorem kkField_and_F0FF (w : Word) : kkField (w &&& 0xF0FF#16) = kkField w :=
  BitVec.extractLsb'_and.trans BitVec.and_allOnes

theorem isSome_decodeAlu (x y x' y' : Reg) (n : Nibble) : (decodeAlu x y n).isSome = (decodeAlu x' y' n).isSome := by
  unfold decodeAlu
  split <;> rfl

theorem isSome_decodeKey (x x' : Reg) (kk : Byte) : (decodeKey x kk).isSome = (decodeKey x' kk).isSome := by
  unfold decodeKey
  split <;> rfl

theorem isSome_decodeMisc (x x' : Reg) (kk : Byte) : (decodeMisc x kk).isSome = (decodeMisc x' kk).isSome := by
  unfold decodeMisc
  split <;> rfl

/-- Clearing the operand fields does not change whether a word decodes. -/
theorem isSome_decodeWord_and_verdictMask (w : Word) :
    (decodeWord (w &&& verdictMask (opField w))).isSome = (decodeWord w).isSome := by
  unfold decodeWord
  rw [opField_and_verdictMask]
  split
  -- the families that look at more than the high nibble: 0nnn, then 5xy0 and 9xy0, 8xyn, Exkk, Fxkk
  case h_1 hop => rw [hop]; exact congrArg (fun v => (decodeZ v).isSome) BitVec.and_allOnes
  case h_6 hop | h_10 hop =>
    simp only [hop, verdictMask, nField_and_F00F]
    split <;> rfl
  case h_9 hop =>
    simp only [hop, verdictMask, nField_and_F00F]
    exact isSome_decodeAlu ..
  case h_15 hop =>
    simp only [hop, verdictMask, kkField_and_F0FF]
    exact isSome_decodeKey ..
  case h_16 =>
    have hop : opField w = 0xF#4 := by
      simp only [imp_false] at *
      bv_omega
    simp only [hop, verdictMask, kkField_and_F0FF]
    exact isSome_decodeMisc ..
  all_goals rfl

/-! ## The mask and match table (R54, R55) -/

/-- An encoded word matches the row of its instruction. -/
theorem accepts_rowOf (ins : Instr) : (Laws.rowOf ins).accepts (encodeWord ins) = true := by
  cases ins with
  | cls | ret => rfl
  | jp | call | ldI | jpV0 => exact Laws.accepts_wordA _ _ _ (by decide)
  | seImm | sneImm | ldImm | addImm | rnd => exact Laws.accepts_wordXK _ _ _ _ (by decide)
  | seReg | sneReg | ldReg | orReg | andReg | xorReg | addReg | subReg | shr | subnReg | shl =>
    exact Laws.accepts_wordXY _ _ _ _ _ (by decide)
  | drw => exact Laws.accepts_wordXYN _ _ _ _ _ (by decide)
  | skp | sknp | ldVxDt | ldVxK | ldDtVx | ldStVx | addI | ldF | ldB | ldMemVx | ldVxMem =>
    exact Laws.accepts_wordX _ _ _ _ (by decide)

theorem rowOf_mem_opcodeRows (ins : Instr) : Laws.rowOf ins ∈ opcodeRows := by
  cases ins <;> exact List.mem_of_elem_eq_true rfl

/-- Each row masks exactly the bits the decoder's verdict depends on, and its match word itself decodes. -/
theorem opcodeRows_verdict :
    ∀ row ∈ opcodeRows, row.mask = verdictMask (opField row.pattern) ∧ (decodeWord row.pattern).isSome = true := by
  decide

theorem isSome_decodeWord_of_match {w : Word} {row : OpcodeRow} (hmem : row ∈ opcodeRows)
    (hrow : w &&& row.mask = row.pattern) : (decodeWord w).isSome = true := by
  obtain ⟨hmask, hsome⟩ := opcodeRows_verdict row hmem
  have hop : opField row.pattern = opField w := by rw [← hrow, hmask, opField_and_verdictMask]
  rw [← isSome_decodeWord_and_verdictMask, ← hop, ← hmask, hrow]
  exact hsome

/-- Settles O3: a decoded word is an encoding, which matches its row; a word that matches a row has the verdict of the row's
match word. -/
theorem decoderAcceptsExactlyTableRows : Obligations.DecoderAcceptsExactlyTableRows := by
  intro w
  constructor
  · intro h
    obtain ⟨ins, hins⟩ := Option.isSome_iff_exists.mp h
    refine ⟨Laws.rowOf ins, rowOf_mem_opcodeRows ins, ?_⟩
    rw [← encodeWord_of_decodeWord hins]
    exact of_decide_eq_true (accepts_rowOf ins)
  · rintro ⟨row, hmem, hrow⟩
    exact isSome_decodeWord_of_match hmem hrow

/-- Two rows that accept one word agree on the bits both of them fix. -/
theorem OpcodeRow.pattern_and_mask_eq {a b : OpcodeRow} {w : Word} (ha : a.accepts w = true) (hb : b.accepts w = true) :
    a.pattern &&& b.mask = b.pattern &&& a.mask := by
  rw [← of_decide_eq_true ha, ← of_decide_eq_true hb, BitVec.and_assoc, BitVec.and_assoc, BitVec.and_comm a.mask]

/-- Any two rows of the table differ on a bit that both of them fix. -/
theorem opcodeRows_pairwise_differ :
    opcodeRows.Pairwise fun a b => a.pattern &&& b.mask ≠ b.pattern &&& a.mask := by decide

/-- If no two elements satisfy `p`, at most one does. -/
theorem countP_le_one_of_pairwise {α : Type} {p : α → Bool} {l : List α}
    (h : l.Pairwise fun a b => p a = true → ¬ p b = true) : l.countP p ≤ 1 := by
  induction h with
  | nil => exact Nat.zero_le 1
  | @cons a l hal _ ih =>
    by_cases ha : p a = true
    · rw [List.countP_cons_of_pos ha, List.countP_eq_zero.mpr fun b hb => hal b hb ha]
    · rw [List.countP_cons_of_neg ha]
      exact ih

/-- Settles O4: two rows that accept one word would agree on the bits both fix, and no two rows of the table do. -/
theorem noWordMatchesTwoRows : Obligations.NoWordMatchesTwoRows := fun _ =>
  countP_le_one_of_pairwise (opcodeRows_pairwise_differ.imp fun hne ha hb => hne (OpcodeRow.pattern_and_mask_eq ha hb))

/-! ## Operand values and sample words (R52, R54, R58) -/

/-- Settles O5: the bounds are those of the operand types. -/
theorem everyOperandValueIsLegal : Obligations.EveryOperandValueIsLegal := by
  have hreg (x : Reg) : decide (x.toNat < Config.numV) = true := decide_eq_true x.isLt
  have haddr (a : Addr12) : decide (a.toNat < Config.memSize) = true := decide_eq_true a.isLt
  intro ins
  cases ins with
  | cls | ret => rfl
  | jp a | call a | ldI a | jpV0 a => exact haddr a
  | seImm x | sneImm x | ldImm x | addImm x | rnd x => exact hreg x
  | seReg x y | sneReg x y | ldReg x y | orReg x y | andReg x y | xorReg x y | addReg x y | subReg x y | shr x y
  | subnReg x y | shl x y | drw x y => exact Bool.and_eq_true_iff.mpr ⟨hreg x, hreg y⟩
  | skp x | sknp x | ldVxDt x | ldVxK x | ldDtVx x | ldStVx x | addI x | ldF x | ldB x | ldMemVx x | ldVxMem x =>
    exact hreg x

/-- Settles O6: six of the words are encodings of their instructions, the last matches no row. -/
theorem sampleWordsDecode : Obligations.SampleWordsDecode :=
  ⟨decodeOfEncodeIsIdentity .cls [], decodeOfEncodeIsIdentity (.jp 0xABC) [], decodeOfEncodeIsIdentity (.seImm 0xA 0x7F) [],
    decodeOfEncodeIsIdentity (.shl 0xA 0xB) [], decodeOfEncodeIsIdentity (.drw 0 1 15) [],
    decodeOfEncodeIsIdentity (.ldMemVx 8) [], rfl⟩

end Sys2Proof
end

section
/-! The statements about the execution cycle (spec/40_execution_cycle.md R70 to R78): what a step is, given its fetched
instruction, and what a step does to the latch and the timers. -/

namespace Sys2Proof.Machine

/-! ## Fetch and decode (R71, R72) -/

/-- The decoder and the table's own check give one verdict (R54, R55). -/
theorem isSome_decodeWord (w : Word) : (decodeWord w).isSome = wordWellFormed w := by
  rw [Bool.eq_iff_iff, decoderAcceptsExactlyTableRows w]
  simp only [wordWellFormed, List.any_eq_true, OpcodeRow.accepts, decide_eq_true_iff]

/-- A word of the table at PC is fetched as its instruction. -/
theorem State.fetchInstr_of_decodeWord {s : State} {ins : Instr} (hpc : s.pc.toNat ≤ 0xFFE)
    (h : decodeWord (wordOfBytes (s.mem.read s.pc.toNat) (s.mem.read (s.pc.toNat + 1))) = some ins) :
    s.fetchInstr = .ok ins := by
  simp only [State.fetchInstr, State.fetchWord_of_le hpc, h]

/-- A word of no row at PC is an unknown opcode (R171). -/
theorem State.fetchInstr_of_unknown {s : State} (hpc : s.pc.toNat ≤ 0xFFE)
    (h : wordWellFormed (wordOfBytes (s.mem.read s.pc.toNat) (s.mem.read (s.pc.toNat + 1))) = false) :
    s.fetchInstr =
      .error (.unknownOpcode (wordOfBytes (s.mem.read s.pc.toNat) (s.mem.read (s.pc.toNat + 1))) s.pc) := by
  rw [← isSome_decodeWord, Option.isSome_eq_false_iff, Option.isNone_iff_eq_none] at h
  simp only [State.fetchInstr, State.fetchWord_of_le hpc, h]

/-- What fetch and decode raise is a fault, never code 0. -/
theorem State.fetchInstr_error_ne_none {s : State} {f : FaultLatch} (h : s.fetchInstr = .error f) : f ≠ .none := by
  unfold State.fetchInstr at h
  split at h
  case h_1 hw =>
    rw [State.fetchWord_eq] at hw
    split at hw <;> cases hw
    cases h
    nofun
  case h_2 =>
    split at h <;> cases h
    nofun

/-! ## The step, given what was fetched (R70, R76) -/

/-- A fault of fetch or decode is the step's fault. -/
theorem step_of_fetchInstr_error {s : State} {f : FaultLatch} (hrun : s.fault = .none) (hi : s.fetchInstr = .error f) :
    step s = .next (s.raise f).consumeInput := by
  rw [step_of_running hrun, hi]

/-- A fetched instruction is executed, and the step ended. -/
theorem step_of_fetchInstr_ok {s t : State} {ins : Instr} (hrun : s.fault = .none) (hi : s.fetchInstr = .ok ins)
    (ht : exec ins s = .next t) : step s = .next t.afterExec := by
  simp only [step_of_running hrun, hi, ht, completeStep]

/-- The end of a step raises and clears no fault. -/
@[simp] theorem State.afterExec_fault (t : State) : t.afterExec.fault = t.fault := by
  rcases t.afterExec_eq with h | h <;> rw [h] <;> rfl

/-- Settles O11: fetch and decode fault by the fault entry alone, and so does Execute, whose fault leaves out the tick. -/
theorem faultingStepChangesOnlyFault : Obligations.FaultingStepChangesOnlyFault := by
  intro s t hrun h hfault
  rcases step_cases h with ⟨hhalted, -⟩ | ⟨-, f, -, rfl⟩ | ⟨-, ins, u, -, hu, rfl⟩
  · exact absurd hrun hhalted
  · rfl
  · rw [State.afterExec_fault] at hfault ⊢
    rw [State.afterExec_faulted hfault]
    rcases exec_latch_or_raise hu with hkept | hraised
    · exact absurd (hkept.trans hrun) hfault
    · exact congrArg State.consumeInput hraised

/-- Settles O12: Execute answers a next state for every instruction, and no other part of the step can end the run. -/
theorem everyStepAnswersNextState : Obligations.EveryStepAnswersNextState := by
  intro s
  by_cases hrun : s.fault = .none
  · cases hi : s.fetchInstr with
    | error f => exact ⟨_, step_of_fetchInstr_error hrun hi⟩
    | ok ins =>
      obtain ⟨t, ht⟩ := exec_answers_next ins s
      exact ⟨_, step_of_fetchInstr_ok hrun hi ht⟩
  · exact ⟨_, step_of_halted hrun⟩

/-! ## The timers (R75, R152, R153) -/

theorem writeSet_delay (ins : Instr) : (writeSet ins).delay = false ∨ ∃ x, ins = .ldDtVx x := by
  cases ins
  case ldDtVx x => exact .inr ⟨x, rfl⟩
  all_goals exact .inl rfl

theorem writeSet_sound (ins : Instr) : (writeSet ins).sound = false ∨ ∃ x, ins = .ldStVx x := by
  cases ins
  case ldStVx x => exact .inr ⟨x, rfl⟩
  all_goals exact .inl rfl

/-- Execute keeps DT, or is LD DT, Vx. -/
theorem exec_dt {ins : Instr} {s t : State} (h : exec ins s = .next t) :
    t.dt = s.dt ∨ ∃ x, ins = .ldDtVx x ∧ t.dt = s.getV x := by
  rcases writeSet_delay ins with hw | ⟨x, rfl⟩
  · exact .inl ((exec_writesOnly h).delay hw)
  · cases h
    exact .inr ⟨x, rfl, rfl⟩

/-- Execute keeps ST, or is LD ST, Vx. -/
theorem exec_st {ins : Instr} {s t : State} (h : exec ins s = .next t) :
    t.st = s.st ∨ ∃ x, ins = .ldStVx x ∧ t.st = s.getV x := by
  rcases writeSet_sound ins with hw | ⟨x, rfl⟩
  · exact .inl ((exec_writesOnly h).sound hw)
  · cases h
    exact .inr ⟨x, rfl, rfl⟩

/-- A step that leaves no fault executed an instruction and ticked (R75, R76). -/
theorem completed_step {s t : State} (h : step s = .next t) (hfault : t.fault = .none) :
    ∃ ins u, s.fetchInstr = .ok ins ∧ exec ins s = .next u ∧ t = u.tick.consumeInput := by
  rcases step_cases h with ⟨hhalted, rfl⟩ | ⟨hrun, f, hf, rfl⟩ | ⟨-, ins, u, hi, hu, rfl⟩
  · exact absurd hfault hhalted
  · exact absurd hfault (State.fetchInstr_error_ne_none hf)
  · rw [State.afterExec_fault] at hfault
    exact ⟨ins, u, hi, hu, State.afterExec_running hfault⟩

/-- Settles O14: the tick counts down what Execute left, which is the old timer unless the instruction is the timer's load. -/
theorem timersCountDownUnlessLoaded : Obligations.TimersCountDownUnlessLoaded := by
  intro s t _ h hfault
  obtain ⟨ins, u, hi, hu, rfl⟩ := completed_step h hfault
  simp only [State.consumeInput_dt, State.consumeInput_st, State.tick_dt, State.tick_st, tickTimer_toNat]
  constructor
  · rcases exec_dt hu with hdt | ⟨x, rfl, hdt⟩ <;> rw [hdt]
    · exact .inl rfl
    · exact .inr ⟨x, hi, rfl⟩
  · rcases exec_st hu with hst | ⟨x, rfl, hst⟩ <;> rw [hst]
    · exact .inl rfl
    · exact .inr ⟨x, hi, rfl⟩

theorem tickTimer_eq_ofNat (b : Byte) : tickTimer b = BitVec.ofNat 8 (b.toNat - 1) := by
  rw [← tickTimer_toNat, BitVec.ofNat_toNat, BitVec.setWidth_eq]

/-- The end of a completed step, field by field. -/
theorem State.afterExec_completed {t : State} (h : t.fault = .none) : t.afterExec = { t with
    dt := BitVec.ofNat 8 (t.dt.toNat - 1), st := BitVec.ofNat 8 (t.st.toNat - 1),
    inputs := t.inputs.tail, stepNo := t.stepNo + 1 } := by
  rw [State.afterExec_running h, ← tickTimer_eq_ofNat, ← tickTimer_eq_ofNat]
  rfl

/-! ## The step of a decoded, of an unknown word and of a halted machine (R72, R73, R77) -/

/-- Settles O7: the fetched word decodes to the instruction, and the step's end ticks exactly when Execute left no fault. -/
theorem stepRunsDecodedInstruction : Obligations.StepRunsDecodedInstruction := by
  intro s t ins hrun hpc hdecode ht
  have hstep := step_of_fetchInstr_ok hrun (State.fetchInstr_of_decodeWord hpc hdecode) ht
  constructor <;> intro hfault <;> rw [hstep]
  · rw [State.afterExec_completed hfault]
  · rw [State.afterExec_faulted hfault]
    rfl

/-- Settles O10: no row means no instruction, so decode raises the fault. -/
theorem unknownWordFaults : Obligations.UnknownWordFaults := fun _ hrun hpc hword =>
  step_of_fetchInstr_error hrun (State.fetchInstr_of_unknown hpc hword)

/-- Pull answers a range exactly when one is pending (R124). -/
theorem Display.pull_isSome (d : Display) : d.pull.1.isSome = d.dirty := by
  unfold Display.pull
  split
  next h => exact h.symm
  next h => exact (Bool.eq_false_of_not_eq_true h).symm

/-- Reset of an image that fits leaves no fault (R190). -/
theorem hostReset_fault_of_le {rom : List Byte} (s : State) (h : rom.length ≤ romMax) : (hostReset rom s).fault = .none := by
  rw [hostReset, if_neg (Nat.not_lt.mpr h)]
  rfl

/-- Settles O8: Pull works on the display alone, and Reset starts from the reset state. -/
theorem haltedMachineOnlyLeavesByReset : Obligations.HaltedMachineOnlyLeavesByReset := fun s hfault =>
  ⟨step_of_halted hfault, rfl, ⟨s.display.pull_isSome, rfl⟩, fun _ hlen => hostReset_fault_of_le s hlen⟩

end Sys2Proof.Machine
end

section
/-! The statements about control flow (spec/41_control_flow.md R80 to R87): jumps and skips move PC alone, CALL and RET move PC and
the call stack. -/

namespace Sys2Proof.Machine

/-! ## Jumps (R81, R87) -/

/-- A handler that only ends changes nothing but PC (R74). -/
theorem State.finish_sameButPc (s : State) (o : PcOutcome) : SameButPc s (s.finish o) :=
  ⟨fun _ _ => rfl, rfl, fun _ => rfl, ⟨rfl, rfl⟩, ⟨rfl, rfl⟩, rfl, rfl, rfl, rfl⟩

/-- A 12-bit address and a byte add up without a carry out of 16 bits (R87). -/
theorem zextAddr_add_zextByte_toNat (addr : Addr12) (b : Byte) :
    (zextAddr addr + zextByte b).toNat = addr.toNat + b.toNat := by
  have haddr : addr.toNat < 4096 := addr.isLt
  have hb : b.toNat < 256 := b.isLt
  rw [BitVec.toNat_add, zextAddr_toNat, zextByte_toNat, Nat.mod_eq_of_lt (by omega)]

/-- Settles O20: the jump's end takes the widened address. -/
theorem jumpLoadsAddress : Obligations.JumpLoadsAddress := fun addr s =>
  ⟨decodeWord_encodeWord (.jp addr), _, rfl, zextAddr_toNat addr, s.finish_sameButPc _⟩

/-- Settles O21: the sum is below 2^16, so it is exact. -/
theorem jumpV0AddsUnmasked : Obligations.JumpV0AddsUnmasked := fun addr s =>
  ⟨decodeWord_encodeWord (.jpV0 addr), _, rfl, zextAddr_add_zextByte_toNat addr _, s.finish_sameButPc _⟩

/-! ## Skips (R83 to R86) -/

/-- An instruction that ends with `skipIf c` skips exactly when what `c` decides holds, and changes nothing but PC. -/
theorem exec_skips_if {ins : Instr} {s : State} {c : Bool} {p : Prop} [Decidable p]
    (hexec : exec ins s = .next (s.skipIf c)) (hc : c = true ↔ p) :
    ∃ t, exec ins s = .next t ∧ t.pc = s.pc + (if p then 4#16 else 2#16) ∧ SameButPc s t := by
  refine ⟨_, hexec, ?_, s.finish_sameButPc _⟩
  simp only [State.skipIf_pc, hc]
  split <;> rfl

/-- The same for a test that is passed when `p` fails. -/
theorem exec_skips_unless {ins : Instr} {s : State} {c : Bool} {p : Prop} [Decidable p]
    (hexec : exec ins s = .next (s.skipIf c)) (hc : c = true ↔ ¬ p) :
    ∃ t, exec ins s = .next t ∧ t.pc = s.pc + (if p then 2#16 else 4#16) ∧ SameButPc s t := by
  simpa only [ite_not] using exec_skips_if hexec hc

/-- Settles O25: each skip ends with `skipIf` of its own comparison. -/
theorem skipsCompareRegisters : Obligations.SkipsCompareRegisters := fun x y kk _ =>
  ⟨⟨decodeWord_encodeWord (.seImm x kk), decodeWord_encodeWord (.sneImm x kk), decodeWord_encodeWord (.seReg x y),
      decodeWord_encodeWord (.sneReg x y)⟩,
    exec_skips_if rfl beq_iff_eq, exec_skips_unless rfl bne_iff_ne, exec_skips_if rfl beq_iff_eq,
    exec_skips_unless rfl bne_iff_ne⟩

/-! ## CALL and RET (R80, R82; the call stack R44, R45) -/

/-- CALL with room on the stack: the address of the CALL itself goes into the slot SP names. -/
theorem exec_call_of_lt {s : State} (addr : Addr12) (h : s.sp.val < 16) :
    exec (.call addr) s = .next { s with
      pc := zextAddr addr, sp := ⟨s.sp.val + 1, by omega⟩, stack := s.stack.set s.sp.val s.pc h } := by
  rw [exec, execCall, State.push_of_lt s.pc h]
  rfl

/-- CALL on a full stack is the fault entry (R173). -/
theorem exec_call_full {s : State} (addr : Addr12) (h : s.sp.val = 16) :
    exec (.call addr) s = .next (s.raise (.stackOverflow s.pc)) := by
  rw [exec, execCall, State.push_full s.pc h]

/-- RET with `k + 1` live entries resumes after the address in slot `k`, which stays there. -/
theorem exec_ret_of_succ {s : State} {k : Fin 16} (h : s.sp.val = k.val + 1) :
    exec .ret s = .next { s with pc := s.stack[k] + 2#16, sp := k.castSucc } := by
  have hk : s.sp.val - 1 = k.val := by omega
  rw [exec, execRet, State.pop_of_pos (by omega)]
  simp only [hk]
  rfl

/-- RET on an empty stack is the fault entry (R174). -/
theorem exec_ret_empty {s : State} (h : s.sp.val = 0) : exec .ret s = .next (s.raise (.stackUnderflow s.pc)) := by
  rw [exec, execRet, State.pop_empty h]

/-- What a change of PC and the call stack leaves as it was. -/
theorem frame_of_pc_sp_stack {s t : State} {p : Word} {n : Fin 17} {stk : Vector Word 16}
    (h : t = { s with pc := p, sp := n, stack := stk }) :
    SameV s t [] ∧ t.i = s.i ∧ SameMem s t ∧ SameTimers s t ∧ t.display = s.display ∧ SameLatch s t := by
  subst h
  exact ⟨fun _ _ => rfl, rfl, fun _ => rfl, ⟨rfl, rfl⟩, rfl, rfl, rfl, rfl⟩

/-- A stack entry after a push: the pushed value in the slot SP named, the old entry elsewhere (R44). -/
theorem getElem_stack_set {s : State} (v : Word) (h : s.sp.val < 16) (k : Fin 16) :
    (s.stack.set s.sp.val v h)[k] = if k.val = s.sp.val then v else s.stack[k] := by
  simp only [Fin.getElem_fin, Vector.getElem_set, eq_comm]

/-- Settles O22: the push succeeds below SP = 16 and is a fault at 16. -/
theorem callPushesOwnAddress : Obligations.CallPushesOwnAddress := fun addr _ =>
  ⟨decodeWord_encodeWord (.call addr),
    fun h => ⟨_, exec_call_of_lt addr h, zextAddr_toNat addr, rfl, getElem_stack_set _ h, frame_of_pc_sp_stack rfl⟩,
    exec_call_full addr⟩

/-- Settles O23: the pop succeeds above SP = 0 and is a fault at 0. -/
theorem returnResumesAfterCall : Obligations.ReturnResumesAfterCall := fun _ =>
  ⟨decodeWord_encodeWord .ret,
    fun _ h => ⟨_, exec_ret_of_succ h, rfl, rfl, rfl, frame_of_pc_sp_stack rfl⟩,
    exec_ret_empty⟩

/-- Settles O24: RET reads the slot that CALL wrote, and takes SP back to it. -/
theorem returnAfterCallComesBack : Obligations.ReturnAfterCallComesBack := by
  intro addr s t u hsp hcall hspKept hstackKept
  rw [exec_call_of_lt addr hsp] at hcall
  cases hcall
  have hslot : u.stack[(⟨s.sp.val, hsp⟩ : Fin 16)] = s.pc := by rw [hstackKept, getElem_stack_set, if_pos rfl]
  exact ⟨_, exec_ret_of_succ (congrArg Fin.val hspKept), congrArg (· + 2#16) hslot, rfl⟩

end Sys2Proof.Machine
end

section
/-! The statements about register loads and 8-bit arithmetic (spec/42_arithmetic.md R90 to R97): one register written, or the result
and then the flag. -/

namespace Sys2Proof.Machine

/-! ## One register written (R90 to R92) -/

/-- What a handler that writes V[x] and advances leaves as it was. -/
theorem State.setV_advance_frame (s : State) (x : Reg) (b : Byte) :
    ((s.setV x b).finish .advance).pc = s.pc + 2#16 ∧ SameV s ((s.setV x b).finish .advance) [x] ∧
      SameBeyondV s ((s.setV x b).finish .advance) :=
  ⟨rfl, fun _ hr => s.getV_setV_ne b (List.ne_of_not_mem_cons hr), rfl, fun _ => rfl, ⟨rfl, rfl⟩, ⟨rfl, rfl⟩, rfl, rfl, rfl, rfl⟩

/-- Settles O26: each load ends by writing its one register. -/
theorem loadsSetOneRegister : Obligations.LoadsSetOneRegister := fun x y kk s =>
  ⟨⟨decodeWord_encodeWord (.ldImm x kk), decodeWord_encodeWord (.ldReg x y)⟩,
    ⟨_, rfl, s.getV_setV_self x kk, s.setV_advance_frame x kk⟩,
    ⟨_, rfl, s.getV_setV_self x _, s.setV_advance_frame x _⟩⟩

/-- Settles O27: the sum of two bytes is already reduced modulo 256, and V[x] is the only register written. -/
theorem addImmediateWrapsWithoutFlag : Obligations.AddImmediateWrapsWithoutFlag := fun x kk s =>
  ⟨decodeWord_encodeWord (.addImm x kk), _, rfl,
    by rw [State.finish_getV, State.getV_setV_self, BitVec.toNat_add], s.setV_advance_frame x _⟩

/-! ## The result, then the flag (R93 to R97) -/

theorem flagByte_decide (p : Prop) [Decidable p] : flagByte (decide p) = if p then 1#8 else 0#8 := by
  simp only [flagByte, decide_eq_true_eq]

/-- VF ends as the flag, whatever x is: the flag is written last (R97). -/
theorem State.resultThenFlag_getV_vF (s : State) (x : Reg) (r : Byte) (c : Bool) :
    (s.resultThenFlag x r c).getV vF = flagByte c :=
  (s.setV x r).getV_setV_self vF _

theorem State.resultThenFlag_getV_result (s : State) {x : Reg} (r : Byte) (c : Bool) (hx : x ≠ vF) :
    (s.resultThenFlag x r c).getV x = r :=
  ((s.setV x r).getV_setV_ne _ hx).trans (s.getV_setV_self x r)

/-- What a handler that writes a result and the flag leaves as it was. -/
theorem State.resultThenFlag_frame (s : State) (x : Reg) (r : Byte) (c : Bool) :
    (s.resultThenFlag x r c).pc = s.pc + 2#16 ∧ SameV s (s.resultThenFlag x r c) [x, vF] ∧
      SameBeyondV s (s.resultThenFlag x r c) := by
  refine ⟨rfl, fun k hk => ?_, rfl, fun _ => rfl, ⟨rfl, rfl⟩, ⟨rfl, rfl⟩, rfl, rfl, rfl, rfl⟩
  have hx : k ≠ x := List.ne_of_not_mem_cons hk
  have hF : k ≠ vF := List.ne_of_not_mem_cons (List.not_mem_of_not_mem_cons hk)
  exact ((s.setV x r).getV_setV_ne _ hF).trans (s.getV_setV_ne r hx)

/-- An instruction that ends with a result of value `n` in V[x] and then the flag that `p` decides: R93 to R95 in one shape. -/
theorem exec_sets_result_and_flag {ins : Instr} {s : State} {x : Reg} {r : Byte} {n : Nat} {p : Prop} [Decidable p]
    (hexec : exec ins s = .next (s.resultThenFlag x r (decide p))) (hr : r.toNat = n) :
    ∃ t, exec ins s = .next t ∧ (x ≠ vF → (t.getV x).toNat = n) ∧ t.getV vF = (if p then 1#8 else 0#8) ∧
      t.pc = s.pc + 2#16 ∧ SameV s t [x, vF] ∧ SameBeyondV s t :=
  ⟨_, hexec, fun hx => by rw [State.resultThenFlag_getV_result s r _ hx, hr],
    (s.resultThenFlag_getV_vF x r _).trans (flagByte_decide p), s.resultThenFlag_frame x r _⟩

/-- The difference of two bytes, borrowing 256 before it subtracts (R96). -/
theorem byte_sub_toNat (a b : Byte) : (a - b).toNat = (a.toNat + 256 - b.toNat) % 256 := by
  rw [BitVec.toNat_sub, Nat.add_comm a.toNat, Nat.sub_add_comm b.isLt.le]

/-- Settles O28: the result is the sum, the flag its carry. -/
theorem addSetsCarry : Obligations.AddSetsCarry := fun x y s =>
  ⟨decodeWord_encodeWord (.addReg x y), exec_sets_result_and_flag rfl (BitVec.toNat_add (s.getV x) (s.getV y))⟩

/-- Settles O29: the result is Vx - Vy, the flag its NOT-borrow. -/
theorem subSetsNotBorrow : Obligations.SubSetsNotBorrow := fun x y s =>
  ⟨decodeWord_encodeWord (.subReg x y), exec_sets_result_and_flag rfl (byte_sub_toNat (s.getV x) (s.getV y))⟩

/-- Settles O30: the result is Vy - Vx, the flag its NOT-borrow. -/
theorem subnSetsNotBorrow : Obligations.SubnSetsNotBorrow := fun x y s =>
  ⟨decodeWord_encodeWord (.subnReg x y), exec_sets_result_and_flag rfl (byte_sub_toNat (s.getV y) (s.getV x))⟩

end Sys2Proof.Machine
end

section
/-! The statements about bitwise operations and shifts (spec/43_bitwise_shift.md R100 to R104): one register written, or the flag and
then the result. -/

namespace Sys2Proof.Machine

/-! ## OR, AND and XOR (R100 to R102) -/

/-- Settles O31: each operation ends by writing V[x] alone, and acts on bytes as it does on their bits. -/
theorem bitwiseOpsLeaveVf : Obligations.BitwiseOpsLeaveVf := by
  intro x y s
  refine ⟨⟨decodeWord_encodeWord (.orReg x y), decodeWord_encodeWord (.andReg x y), decodeWord_encodeWord (.xorReg x y)⟩,
    ⟨_, rfl, fun k => ?_, s.setV_advance_frame x _⟩, ⟨_, rfl, fun k => ?_, s.setV_advance_frame x _⟩,
    ⟨_, rfl, fun k => ?_, s.setV_advance_frame x _⟩⟩ <;> rw [State.finish_getV, State.getV_setV_self]
  · exact BitVec.getLsbD_or
  · exact BitVec.getLsbD_and
  · exact BitVec.getLsbD_xor

/-! ## The flag, then the result (R103, R104) -/

theorem flagByte_toNat (c : Bool) : (flagByte c).toNat = c.toNat := by cases c <;> rfl

/-- With x = F the shift reads the flag just written (D15). -/
theorem State.flagThenResult_getV_vF_self (s : State) (c : Bool) (f : Byte → Byte) :
    (s.flagThenResult vF c f).getV vF = f (flagByte c) := by
  rw [State.flagThenResult, State.finish_getV, State.getV_setV_self, State.getV_setFlag, if_pos rfl]

theorem State.flagThenResult_getV_result (s : State) {x : Reg} (c : Bool) (f : Byte → Byte) (hx : x ≠ vF) :
    (s.flagThenResult x c f).getV x = f (s.getV x) := by
  rw [State.flagThenResult, State.finish_getV, State.getV_setV_self, State.getV_setFlag, if_neg hx]

theorem State.flagThenResult_getV_vF (s : State) {x : Reg} (c : Bool) (f : Byte → Byte) (hx : x ≠ vF) :
    (s.flagThenResult x c f).getV vF = flagByte c := by
  rw [State.flagThenResult, State.finish_getV, State.getV_setV_ne _ _ hx.symm, State.getV_setFlag, if_pos rfl]

/-- What a handler that writes the flag and a result leaves as it was. -/
theorem State.flagThenResult_frame (s : State) (x : Reg) (c : Bool) (f : Byte → Byte) :
    (s.flagThenResult x c f).pc = s.pc + 2#16 ∧ SameV s (s.flagThenResult x c f) [x, vF] ∧
      SameBeyondV s (s.flagThenResult x c f) := by
  obtain ⟨hpc, hregs, hrest⟩ := (s.setFlag c).setV_advance_frame x (f ((s.setFlag c).getV x))
  refine ⟨hpc, fun k hk => ?_, hrest⟩
  obtain ⟨hx, hF⟩ := not_or.mp (mt List.mem_cons.mpr hk)
  exact (hregs k (mt List.mem_singleton.mp hx)).trans (s.getV_setV_ne _ (List.ne_of_not_mem_cons hF))

/-- An instruction that ends with the flag and then `f` of V[x]: a result of value `n` and a flag of value `m`, or, with x = F, the byte
`b` that `f` makes of the flag. R103 and R104 in one shape. -/
theorem exec_sets_flag_and_result {ins : Instr} {s : State} {x : Reg} {c : Bool} {f : Byte → Byte} {n m : Nat} {b : Byte}
    (hexec : exec ins s = .next (s.flagThenResult x c f)) (hresult : (f (s.getV x)).toNat = n)
    (hflag : (flagByte c).toNat = m) (hself : x = vF → f (flagByte c) = b) :
    ∃ t, exec ins s = .next t ∧ (x ≠ vF → (t.getV x).toNat = n ∧ (t.getV vF).toNat = m) ∧ (x = vF → t.getV vF = b) ∧
      t.pc = s.pc + 2#16 ∧ SameV s t [x, vF] ∧ SameBeyondV s t := by
  refine ⟨_, hexec, fun hx => ⟨?_, ?_⟩, fun hx => ?_, s.flagThenResult_frame x c f⟩
  · rw [State.flagThenResult_getV_result s c f hx, hresult]
  · rw [State.flagThenResult_getV_vF s c f hx, hflag]
  · rw [← hself hx, hx, State.flagThenResult_getV_vF_self]

/-! ## The dropped bit (R103, R104) -/

theorem shiftOutRight_toNat (a : Byte) : (shiftOutRight a).toNat = a.toNat % 2 := by
  rw [shiftOutRight, BitVec.getLsbD, Nat.toNat_testBit, pow_zero, Nat.div_one]

theorem shiftOutLeft_toNat (a : Byte) : (shiftOutLeft a).toNat = a.toNat / 128 := by
  have ha : a.toNat < 256 := a.isLt
  rw [shiftOutLeft, BitVec.getLsbD, Nat.toNat_testBit, Nat.mod_eq_of_lt (by omega)]

theorem shiftOutLeft_eq_decide (a : Byte) : shiftOutLeft a = decide (a.toNat ≥ 0x80) := a.msb_eq_decide

/-- A flag halved is gone. -/
theorem flagByte_div_two (c : Bool) : flagByte c / 2#8 = 0#8 := by cases c <;> rfl

theorem flagByte_mul_two (c : Bool) : flagByte c * 2#8 = if c then 2#8 else 0#8 := by cases c <;> rfl

/-- Settles O32: the flag is the bit that halving drops, and half a flag is 0. -/
theorem shiftRightHalves : Obligations.ShiftRightHalves := fun x y s =>
  ⟨decodeWord_encodeWord (.shr x y), exec_sets_flag_and_result rfl (BitVec.toNat_udiv (x := s.getV x) (y := 2#8))
    ((flagByte_toNat _).trans (shiftOutRight_toNat _)) fun _ => flagByte_div_two _⟩

/-- Settles O33: the flag is the bit that doubling modulo 256 drops, and a set flag doubled is 2. -/
theorem shiftLeftDoubles : Obligations.ShiftLeftDoubles := by
  intro x y s
  refine ⟨decodeWord_encodeWord (.shl x y), exec_sets_flag_and_result rfl (BitVec.toNat_mul (s.getV x) 2#8)
    ((flagByte_toNat _).trans (shiftOutLeft_toNat _)) fun hx => ?_⟩
  simp only [flagByte_mul_two, shiftOutLeft_eq_decide, decide_eq_true_eq, hx]

end Sys2Proof.Machine
end

section
/-! The statement about the random byte (spec/44_random.md R110, R111): one register written, with this step's byte under the mask. -/

namespace Sys2Proof.Machine

/-- The random byte is the one of the step's inputs, unreduced: its range fits a byte (R110). -/
theorem State.rndByte_toNat (s : State) : s.rndByte.toNat = s.input.rnd.val :=
  Nat.mod_eq_of_lt (s.input.rnd.isLt.trans (by decide))

theorem State.input_of_cons {s : State} {inp : StepInput} {rest : List StepInput} (h : s.inputs = inp :: rest) :
    s.input = inp := by
  rw [State.input, h]

/-- The full mask keeps the random byte, and the byte is never 0xFF (R111). -/
theorem State.rndByte_and_ne_ones (s : State) : s.rndByte &&& 0xFF#8 ≠ 0xFF#8 := by
  intro h
  have hbyte : s.rndByte = 0xFF#8 := (BitVec.and_allOnes (x := s.rndByte)).symm.trans h
  exact absurd (hbyte ▸ s.rndByte_le) (by decide)

/-- Settles O34: RND ends by writing V[x] alone, with this step's random byte under the mask. -/
theorem randomByteIsMasked : Obligations.RandomByteIsMasked := by
  intro x kk s
  have hVx : ((s.setV x (s.rndByte &&& kk)).finish .advance).getV x = s.rndByte &&& kk := s.getV_setV_self x _
  refine ⟨decodeWord_encodeWord (.rnd x kk), _, s.rndByte, rfl, s.rndByte_le, hVx, fun inp rest h => ?_, fun hkk => ?_,
    s.setV_advance_frame x _⟩
  · rw [State.rndByte_toNat, State.input_of_cons h]
  · rw [hVx, hkk]
    exact s.rndByte_and_ne_ones

end Sys2Proof.Machine
end

section
/-! What each operation of the display buffer leaves to be read (spec/45_display.md R120 to R124): the pixels, and the ends of the
pending range. -/

namespace Sys2Proof.Machine

/-! ## Pixels -/

theorem Display.pix_setPix (d : Display) (x x' : Fin 64) (y y' : Fin 32) (b : Bool) :
    (d.setPix x y b).pix x' y' = if x' = x ∧ y' = y then b else d.pix x' y' := by
  simp only [Display.pix, Display.setPix_words, Fin.getElem_fin, Vector.getElem_set]
  by_cases hword : wordIndex x y = wordIndex x' y'
  · have hplace : bitPos x' = bitPos x ↔ x' = x ∧ y' = y := by
      rw [eq_comm, eq_comm (a := x'), eq_comm (a := y'), ← pixel_place_inj, and_iff_right hword]
    rw [if_pos (congrArg Fin.val hword), getLsbD_setBit _ _ _ _ (bitPos_lt x')]
    simp only [hplace, hword]
  · have hplace : ¬ (x' = x ∧ y' = y) := fun h => hword (by rw [h.1, h.2])
    rw [if_neg (fun h => hword (Fin.ext h)), if_neg hplace]

theorem Display.pix_clear_false (x : Fin 64) (y : Fin 32) : (Display.clear false).pix x y = false := by
  simp [Display.pix, Display.clear]

/-- Settles O35: the word of the pixel is the only one written, and it joins the dirty range. -/
theorem setPixChangesOnePixel : Obligations.SetPixChangesOnePixel := by
  intro d x y b
  refine ⟨fun x' y' => d.pix_setPix x x' y y' b, d.setPix_dirty x y b, ?_, ?_⟩
  · rw [Display.setPix_dmin]
    split <;> rfl
  · rw [Display.setPix_dmax]
    split <;> rfl

/-! ## The pending range -/

/-- A range is pending and starts at word `k` or before. -/
def Display.StartsBy (d : Display) (k : Fin 64) : Prop := d.dirty = true ∧ d.dmin ≤ k

/-- A range is pending and ends at word `k` or after. -/
def Display.EndsFrom (d : Display) (k : Fin 64) : Prop := d.dirty = true ∧ k ≤ d.dmax

/-- SetPix moves the start of the range down to the pixel's word (R122). -/
theorem Display.startsBy_setPix (d : Display) (x : Fin 64) (y : Fin 32) (b : Bool) (k : Fin 64) :
    (d.setPix x y b).StartsBy k ↔ d.StartsBy k ∨ wordIndex x y ≤ k := by
  unfold Display.StartsBy
  rw [Display.setPix_dirty, Display.setPix_dmin]
  cases d.dirty with
  | false => simp
  | true => simp

/-- SetPix moves the end of the range up to the pixel's word (R122). -/
theorem Display.endsFrom_setPix (d : Display) (x : Fin 64) (y : Fin 32) (b : Bool) (k : Fin 64) :
    (d.setPix x y b).EndsFrom k ↔ d.EndsFrom k ∨ k ≤ wordIndex x y := by
  unfold Display.EndsFrom
  rw [Display.setPix_dirty, Display.setPix_dmax]
  cases d.dirty with
  | false => simp
  | true => simp

end Sys2Proof.Machine
end

section
/-! A sprite as the list of its dots (spec/45_display.md R127): the drawing loop draws them one after another, no two fall on one
pixel, and together they are the picture `spriteAt`. What a drawing does then follows from what one dot does. -/

namespace Sys2Proof.Machine

/-- One source bit and the pixel it falls on. -/
structure Dot where
  px : Fin 64
  py : Fin 32
  src : Bool

/-- The pixel a dot falls on. -/
def Dot.pixel (p : Dot) : Fin 64 × Fin 32 := (p.px, p.py)

/-- The dots drawn in order. -/
def drawDots (dots : List Dot) (g : Drawing) : Drawing := dots.foldl (fun g p => drawPixel p.px p.py p.src g) g

@[simp] theorem drawDots_nil (g : Drawing) : drawDots [] g = g := rfl

theorem drawDots_cons (p : Dot) (dots : List Dot) (g : Drawing) :
    drawDots (p :: dots) g = drawDots dots (drawPixel p.px p.py p.src g) := rfl

/-! ## What drawing dots does -/

theorem pix_drawPixel (px x : Fin 64) (py y : Fin 32) (src : Bool) (g : Drawing) :
    (drawPixel px py src g).display.pix x y =
      if x = px ∧ y = py then (g.display.pix x y ^^ src) else g.display.pix x y := by
  rw [drawPixel, Display.pix_setPix]
  split
  next h => rw [h.1, h.2]
  next => rfl

theorem pix_drawPixel_of_ne {px x : Fin 64} {py y : Fin 32} (src : Bool) (g : Drawing) (h : ¬ (x = px ∧ y = py)) :
    (drawPixel px py src g).display.pix x y = g.display.pix x y := by
  rw [pix_drawPixel, if_neg h]

/-- No later dot falls on the pixel of the first. -/
theorem Dot.ne_of_mem_tail {p q : Dot} {dots : List Dot} (h : ((p :: dots).map Dot.pixel).Nodup) (hq : q ∈ dots) :
    ¬ (q.px = p.px ∧ q.py = p.py) := by
  rintro ⟨hx, hy⟩
  have hpix : q.pixel = p.pixel := Prod.ext hx hy
  exact (List.nodup_cons.mp h).1 (hpix ▸ List.mem_map_of_mem hq)

/-- A pixel on which no dot falls keeps its value. -/
theorem pix_drawDots_of_forall_ne {px : Fin 64} {py : Fin 32} {dots : List Dot} :
    ∀ g : Drawing, (∀ p ∈ dots, ¬ (px = p.px ∧ py = p.py)) → (drawDots dots g).display.pix px py = g.display.pix px py := by
  induction dots with
  | nil => exact fun _ _ => rfl
  | cons p dots ih =>
    intro g h
    obtain ⟨hp, hdots⟩ := List.forall_mem_cons.mp h
    rw [drawDots_cons, ih _ hdots, pix_drawPixel_of_ne p.src g hp]

/-- Where the dots fall on pixels all different, the pixel of each is XORed with its source bit. -/
theorem pix_drawDots_of_mem {q : Dot} {dots : List Dot} : ∀ g : Drawing, (dots.map Dot.pixel).Nodup → q ∈ dots →
    (drawDots dots g).display.pix q.px q.py = (g.display.pix q.px q.py ^^ q.src) := by
  induction dots with
  | nil => exact fun _ _ hq => absurd hq List.not_mem_nil
  | cons p dots ih =>
    intro g hnodup hq
    rw [drawDots_cons]
    rcases List.mem_cons.mp hq with rfl | hq
    · have hlater : ∀ p ∈ dots, ¬ (q.px = p.px ∧ q.py = p.py) := fun p hp h =>
        Dot.ne_of_mem_tail hnodup hp ⟨h.1.symm, h.2.symm⟩
      rw [pix_drawDots_of_forall_ne _ hlater, pix_drawPixel, if_pos ⟨rfl, rfl⟩]
    · rw [ih _ (List.nodup_cons.mp hnodup).2 hq, pix_drawPixel_of_ne p.src g (Dot.ne_of_mem_tail hnodup hq)]

/-- Where the dots fall on pixels all different, they collide exactly when a source bit 1 falls on a pixel lit before. -/
theorem hit_drawDots (dots : List Dot) : ∀ g : Drawing, (dots.map Dot.pixel).Nodup →
    ((drawDots dots g).hit = true ↔ g.hit = true ∨ ∃ p ∈ dots, p.src = true ∧ g.display.pix p.px p.py = true) := by
  induction dots with
  | nil => simp
  | cons p dots ih =>
    intro g hnodup
    have htail : (∃ q ∈ dots, q.src = true ∧ (drawPixel p.px p.py p.src g).display.pix q.px q.py = true) ↔
        ∃ q ∈ dots, q.src = true ∧ g.display.pix q.px q.py = true :=
      exists_congr fun q => and_congr_right fun hq => by
        rw [pix_drawPixel_of_ne p.src g (Dot.ne_of_mem_tail hnodup hq)]
    rw [drawDots_cons, ih _ (List.nodup_cons.mp hnodup).2, htail, List.exists_mem_cons_iff, ← or_assoc]
    simp only [drawPixel, Bool.or_eq_true, Bool.and_eq_true]

/-- The start of the range goes down to the lowest word of a dot, whatever the source bits are. -/
theorem startsBy_drawDots (k : Fin 64) (dots : List Dot) : ∀ g : Drawing,
    (drawDots dots g).display.StartsBy k ↔ g.display.StartsBy k ∨ ∃ p ∈ dots, wordIndex p.px p.py ≤ k := by
  induction dots with
  | nil => simp
  | cons p dots ih =>
    intro g
    rw [drawDots_cons, ih, drawPixel, Display.startsBy_setPix, List.exists_mem_cons_iff, or_assoc]

/-- The end of the range goes up to the highest word of a dot, whatever the source bits are. -/
theorem endsFrom_drawDots (k : Fin 64) (dots : List Dot) : ∀ g : Drawing,
    (drawDots dots g).display.EndsFrom k ↔ g.display.EndsFrom k ∨ ∃ p ∈ dots, k ≤ wordIndex p.px p.py := by
  induction dots with
  | nil => simp
  | cons p dots ih =>
    intro g
    rw [drawDots_cons, ih, drawPixel, Display.endsFrom_setPix, List.exists_mem_cons_iff, or_assoc]

/-! ## The dots of a sprite -/

/-- The dot of bit `b` of the row byte `row`, which is row `r` of a sprite at (x0, y0). -/
def spriteDot (x0 y0 : Byte) (row : Byte) (r b : Nat) : Dot := ⟨drawCol x0 b, drawRow y0 r, spriteBit row b⟩

/-- The dots of the rows, numbered from `r` on, in the order of the drawing loop. -/
def spriteDots (x0 y0 : Byte) (r : Nat) (rows : List Byte) : List Dot :=
  (rows.zipIdx r ×ˢ List.range 8).map fun q => spriteDot x0 y0 q.1.1 q.1.2 q.2

/-- The drawing loop draws the dots. -/
theorem drawRows_eq_drawDots (x0 y0 : Byte) (rows : List Byte) : ∀ (r : Nat) (g : Drawing),
    drawRows x0 y0 r rows g = drawDots (spriteDots x0 y0 r rows) g := by
  induction rows with
  | nil => exact fun _ _ => rfl
  | cons row rows ih =>
    intro r g
    have hdots : spriteDots x0 y0 r (row :: rows) =
        (List.range 8).map (spriteDot x0 y0 row r) ++ spriteDots x0 y0 (r + 1) rows := by
      simp [spriteDots, List.product_cons, Function.comp_def]
    rw [drawRows_cons, ih, hdots, drawDots, drawDots, List.foldl_append, List.foldl_map]
    rfl

theorem mem_spriteDots {x0 y0 : Byte} {rows : List Byte} {p : Dot} :
    p ∈ spriteDots x0 y0 0 rows ↔ ∃ row r b, rows[r]? = some row ∧ b < 8 ∧ spriteDot x0 y0 row r b = p := by
  simp [spriteDots, List.mk_mem_zipIdx_iff_getElem?, and_assoc]

/-- The bits of a row fall on columns all different: a column gives the bit back. -/
theorem drawCol_eq_iff {x0 : Byte} {b : Nat} {px : Fin 64} (hb : b < 64) :
    drawCol x0 b = px ↔ (px.val + 64 - x0.toNat % 64) % 64 = b := by
  simp only [drawCol, Fin.ext_iff]
  omega

/-- Up to 32 rows fall on display rows all different: a display row gives the sprite row back. -/
theorem drawRow_eq_iff {y0 : Byte} {r : Nat} {py : Fin 32} (hr : r < 32) :
    drawRow y0 r = py ↔ (py.val + 32 - y0.toNat % 32) % 32 = r := by
  simp only [drawRow, Fin.ext_iff]
  omega

/-- The picture of a sprite, position by position, is made of the sprite's dots. -/
theorem spriteAt_eq_some_iff {x0 y0 : Byte} {rows : List Byte} (hlen : rows.length ≤ 32) {p : Dot} :
    spriteAt x0 y0 rows p.px p.py = some p.src ↔ p ∈ spriteDots x0 y0 0 rows := by
  rw [mem_spriteDots]
  constructor
  · intro h
    simp only [spriteAt] at h
    split at h
    case isTrue hb =>
      obtain ⟨row, hrow, hsrc⟩ := Option.map_eq_some_iff.mp h
      refine ⟨row, _, _, hrow, hb, ?_⟩
      rw [spriteDot, hsrc, (drawCol_eq_iff (Nat.mod_lt _ (by decide))).mpr rfl,
        (drawRow_eq_iff (Nat.mod_lt _ (by decide))).mpr rfl]
    case isFalse => cases h
  · rintro ⟨row, r, b, hrow, hb, rfl⟩
    have hr : r < rows.length := (List.getElem?_eq_some_iff.mp hrow).1
    have hcol := (drawCol_eq_iff (x0 := x0) (b := b) (by omega)).mp rfl
    have hrow' := (drawRow_eq_iff (y0 := y0) (r := r) (by omega)).mp rfl
    simp only [spriteAt, spriteDot, hcol, hrow', if_pos hb, hrow, Option.map_some]

/-- No two dots of a sprite of at most 32 rows fall on one pixel. -/
theorem nodup_spriteDots {x0 y0 : Byte} {rows : List Byte} (hlen : rows.length ≤ 32) :
    ((spriteDots x0 y0 0 rows).map Dot.pixel).Nodup := by
  rw [spriteDots, List.map_map]
  refine List.Nodup.map_on ?_ ((List.Nodup.of_map _ rows.nodup_zipIdx_map_snd).product List.nodup_range)
  rintro ⟨⟨row, r⟩, b⟩ hq ⟨⟨row', r'⟩, b'⟩ hq' (hpixel : (drawCol x0 b, drawRow y0 r) = (drawCol x0 b', drawRow y0 r'))
  simp only [List.mem_product, List.mk_mem_zipIdx_iff_getElem?, List.mem_range] at hq hq'
  obtain ⟨hrow, hb⟩ := hq
  obtain ⟨hrow', hb'⟩ := hq'
  have hr : r < rows.length := (List.getElem?_eq_some_iff.mp hrow).1
  have hr' : r' < rows.length := (List.getElem?_eq_some_iff.mp hrow').1
  obtain ⟨hcol, hline⟩ := Prod.mk.inj hpixel
  have hbb : b = b' := ((drawCol_eq_iff (by omega)).mp hcol).symm.trans ((drawCol_eq_iff (by omega)).mp rfl)
  have hrr : r = r' := ((drawRow_eq_iff (by omega)).mp hline).symm.trans ((drawRow_eq_iff (by omega)).mp rfl)
  subst hbb hrr
  rw [Option.some.inj (hrow.symm.trans hrow')]

end Sys2Proof.Machine
end

section
/-! What DRW does (spec/45_display.md R127): the sprite's picture on the display, and the two ways the instruction ends. -/

namespace Sys2Proof.Machine

/-! ## A sprite drawn -/

theorem drawSprite_eq_drawDots (x0 y0 : Byte) (rows : List Byte) (d : Display) :
    drawSprite x0 y0 rows d = drawDots (spriteDots x0 y0 0 rows) ⟨d, false⟩ := drawRows_eq_drawDots x0 y0 rows 0 _

/-- A row byte is 0 exactly when it has no source bit 1. -/
theorem exists_spriteBit_iff {row : Byte} : (∃ b < 8, spriteBit row b = true) ↔ row ≠ 0#8 := by
  constructor
  · rintro ⟨b, -, hbit⟩ rfl
    simp [spriteBit] at hbit
  · intro hrow
    by_contra hdark
    refine hrow (BitVec.eq_of_getLsbD_eq fun k hk => ?_)
    have hbit : ¬ row.getLsbD (7 - (7 - k)) = true := fun h => hdark ⟨7 - k, by omega, h⟩
    rw [show 7 - (7 - k) = k by omega] at hbit
    simpa using hbit

section
variable {x0 y0 : Byte} {rows : List Byte} (hlen : rows.length ≤ 32)
include hlen

/-- A pixel is in the picture exactly when a dot falls on it. -/
theorem exists_spriteDot_iff {P : Fin 64 → Fin 32 → Prop} :
    (∃ p ∈ spriteDots x0 y0 0 rows, P p.px p.py) ↔ ∃ px py, spriteAt x0 y0 rows px py ≠ none ∧ P px py := by
  constructor
  · rintro ⟨p, hp, hP⟩
    exact ⟨p.px, p.py, by rw [(spriteAt_eq_some_iff hlen).mpr hp]; exact Option.some_ne_none _, hP⟩
  · rintro ⟨px, py, hat, hP⟩
    obtain ⟨src, hsrc⟩ := Option.ne_none_iff_exists'.mp hat
    exact ⟨⟨px, py, src⟩, (spriteAt_eq_some_iff hlen).mp hsrc, hP⟩

theorem pix_drawSprite (d : Display) (px : Fin 64) (py : Fin 32) :
    (drawSprite x0 y0 rows d).display.pix px py = (d.pix px py ^^ (spriteAt x0 y0 rows px py).getD false) := by
  rw [drawSprite_eq_drawDots]
  cases hat : spriteAt x0 y0 rows px py with
  | none =>
    have hoff : ∀ p ∈ spriteDots x0 y0 0 rows, ¬ (px = p.px ∧ py = p.py) := by
      rintro p hp ⟨rfl, rfl⟩
      exact Option.some_ne_none _ (((spriteAt_eq_some_iff hlen).mpr hp).symm.trans hat)
    rw [pix_drawDots_of_forall_ne _ hoff, Option.getD_none, Bool.xor_false]
  | some src =>
    exact pix_drawDots_of_mem (q := ⟨px, py, src⟩) _ (nodup_spriteDots hlen) ((spriteAt_eq_some_iff hlen).mp hat)

theorem hit_drawSprite (d : Display) : (drawSprite x0 y0 rows d).hit = true ↔ spriteCollides x0 y0 rows d := by
  rw [drawSprite_eq_drawDots, hit_drawDots _ _ (nodup_spriteDots hlen)]
  constructor
  · rintro (h | ⟨⟨px, py, src⟩, hp, hsrc, hlit⟩)
    · cases h
    · subst hsrc
      exact ⟨px, py, (spriteAt_eq_some_iff hlen).mpr hp, hlit⟩
  · rintro ⟨px, py, hat, hlit⟩
    exact .inr ⟨⟨px, py, true⟩, (spriteAt_eq_some_iff hlen).mp hat, rfl, hlit⟩

theorem startsBy_drawSprite (d : Display) (k : Fin 64) :
    (drawSprite x0 y0 rows d).display.StartsBy k ↔
      d.StartsBy k ∨ ∃ px py, spriteAt x0 y0 rows px py ≠ none ∧ wordIndex px py ≤ k := by
  rw [drawSprite_eq_drawDots, startsBy_drawDots, exists_spriteDot_iff hlen (P := fun px py => wordIndex px py ≤ k)]

theorem endsFrom_drawSprite (d : Display) (k : Fin 64) :
    (drawSprite x0 y0 rows d).display.EndsFrom k ↔
      d.EndsFrom k ∨ ∃ px py, spriteAt x0 y0 rows px py ≠ none ∧ k ≤ wordIndex px py := by
  rw [drawSprite_eq_drawDots, endsFrom_drawDots, exists_spriteDot_iff hlen (P := fun px py => k ≤ wordIndex px py)]

/-- Bit `b` of row `r` stands in the picture where the row and the column wrap to. -/
theorem spriteAt_drawCol_drawRow {row : Byte} {r b : Nat} (hrow : rows[r]? = some row) (hb : b < 8) :
    spriteAt x0 y0 rows (drawCol x0 b) (drawRow y0 r) = some (spriteBit row b) :=
  (spriteAt_eq_some_iff hlen (p := spriteDot x0 y0 row r b)).mpr (mem_spriteDots.mpr ⟨row, r, b, hrow, hb, rfl⟩)

/-- The picture has a source bit 1 exactly when a row byte is not 0. -/
theorem exists_spriteAt_true_iff :
    (∃ px py, spriteAt x0 y0 rows px py = some true) ↔ ∃ row ∈ rows, row ≠ 0#8 := by
  constructor
  · rintro ⟨px, py, hat⟩
    obtain ⟨row, r, b, hrow, hb, hdot⟩ := mem_spriteDots.mp ((spriteAt_eq_some_iff hlen (p := ⟨px, py, true⟩)).mp hat)
    exact ⟨row, List.mem_of_getElem? hrow, exists_spriteBit_iff.mp ⟨b, hb, congrArg Dot.src hdot⟩⟩
  · rintro ⟨row, hmem, hrow⟩
    obtain ⟨r, hr⟩ := List.mem_iff_getElem?.mp hmem
    obtain ⟨b, hb, hbit⟩ := exists_spriteBit_iff.mpr hrow
    exact ⟨drawCol x0 b, drawRow y0 r, hbit ▸ spriteAt_drawCol_drawRow hlen hr hb⟩

end

/-! ## The instruction -/

/-- The row bytes of a sprite of `n` rows, from I on. -/
def State.spriteRows (s : State) (n : Nibble) : List Byte :=
  (List.range n.toNat).map fun r => s.mem.read (s.i.toNat + r)

theorem State.spriteRows_length_le (s : State) (n : Nibble) : (s.spriteRows n).length ≤ 32 := by
  have hn : n.toNat < 16 := n.isLt
  rw [State.spriteRows, List.length_map, List.length_range]
  omega

theorem State.mem_spriteRows {s : State} {n : Nibble} {row : Byte} :
    row ∈ s.spriteRows n ↔ ∃ r < n.toNat, s.mem.read (s.i.toNat + r) = row := by
  simp [State.spriteRows]

/-- The state DRW leaves: the drawing's display, the collision in VF, PC advanced. -/
def State.withDrawing (s : State) (g : Drawing) : State :=
  (State.setFlag { s with display := g.display } g.hit).finish .advance

/-- DRW with all row bytes in range draws the sprite they make. -/
theorem exec_drw_of_le {x y : Reg} {n : Nibble} {s : State} (h : n.toNat = 0 ∨ s.i.toNat + n.toNat ≤ 0x1000) :
    exec (.drw x y n) s = .next (s.withDrawing (drawSprite (s.getV x) (s.getV y) (s.spriteRows n) s.display)) := by
  rw [exec, execDrw, State.readBlock_eq, State.iAddr, if_pos h]
  rfl

/-- DRW with a row byte out of range is the fault entry (R177). -/
theorem exec_drw_of_gt {x y : Reg} {n : Nibble} {s : State} (hn : n.toNat ≠ 0) (h : 0x1000 < s.i.toNat + n.toNat) :
    exec (.drw x y n) s = .next (s.raise (.addressFault (max s.i.toNat 0x1000) .read s.pc)) := by
  rw [exec, execDrw, State.readBlock_eq, State.iAddr, if_neg (by omega)]

theorem State.withDrawing_getV_vF (s : State) (g : Drawing) : (s.withDrawing g).getV vF = flagByte g.hit :=
  State.getV_setV_self _ vF _

theorem State.withDrawing_getV_ne (s : State) (g : Drawing) {r : Reg} (h : r ≠ vF) : (s.withDrawing g).getV r = s.getV r :=
  State.getV_setV_ne _ _ h

theorem State.withDrawing_frame (s : State) (g : Drawing) :
    (s.withDrawing g).pc = s.pc + 2#16 ∧ SameV s (s.withDrawing g) [vF] ∧ (s.withDrawing g).i = s.i ∧
      SameMem s (s.withDrawing g) ∧ SameStack s (s.withDrawing g) ∧ SameTimers s (s.withDrawing g) ∧
      SameLatch s (s.withDrawing g) :=
  ⟨rfl, fun _ hr => s.withDrawing_getV_ne g (List.ne_of_not_mem_cons hr), rfl, fun _ => rfl, ⟨rfl, rfl⟩, ⟨rfl, rfl⟩,
    rfl, rfl, rfl⟩

theorem flagByte_eq_one_iff (c : Bool) : flagByte c = 1#8 ↔ c = true := by cases c <;> decide
theorem flagByte_eq_zero_iff (c : Bool) : flagByte c = 0#8 ↔ ¬ c = true := by cases c <;> decide

section
variable {x0 y0 : Byte} {rows : List Byte} (hlen : rows.length ≤ 32) (s : State) (d : Display)
include hlen

/-- VF after a sprite was drawn is 1 exactly for a collision. -/
theorem State.withDrawing_vF_eq_one_iff :
    (s.withDrawing (drawSprite x0 y0 rows d)).getV vF = 1#8 ↔ spriteCollides x0 y0 rows d := by
  rw [State.withDrawing_getV_vF, flagByte_eq_one_iff, hit_drawSprite hlen]

theorem State.withDrawing_vF_eq_zero_iff :
    (s.withDrawing (drawSprite x0 y0 rows d)).getV vF = 0#8 ↔ ¬ spriteCollides x0 y0 rows d := by
  rw [State.withDrawing_getV_vF, flagByte_eq_zero_iff, hit_drawSprite hlen]

end

/-- The same DRW again, with neither coordinate in VF: the same sprite at the same place. -/
theorem exec_drw_withDrawing {x y : Reg} {n : Nibble} {s : State} (hx : x ≠ vF) (hy : y ≠ vF)
    (h : n.toNat = 0 ∨ s.i.toNat + n.toNat ≤ 0x1000) (g : Drawing) :
    exec (.drw x y n) (s.withDrawing g) =
      .next ((s.withDrawing g).withDrawing (drawSprite (s.getV x) (s.getV y) (s.spriteRows n) g.display)) := by
  rw [exec_drw_of_le (s := s.withDrawing g) h, State.withDrawing_getV_ne s g hx, State.withDrawing_getV_ne s g hy]
  rfl

/-! ## The statements -/

/-- Settles O37: the sprite's dots turn pixels over one by one, and they fall on pixels all different. -/
theorem drawXorsSpriteAndReportsCollision : Obligations.DrawXorsSpriteAndReportsCollision := by
  rintro x y n s _ rfl hfit
  have hlen := s.spriteRows_length_le n
  exact ⟨decodeWord_encodeWord (.drw x y n), _, exec_drw_of_le hfit, pix_drawSprite hlen s.display,
    (State.withDrawing_vF_eq_one_iff hlen s s.display).mpr, (State.withDrawing_vF_eq_zero_iff hlen s s.display).mpr,
    s.withDrawing_frame _⟩

/-- A sprite with a row leaves a range pending: its first pixel is in the box. -/
theorem dirty_drawSprite {x0 y0 : Byte} {rows : List Byte} (hlen : rows.length ≤ 32) (hrows : rows ≠ []) (d : Display) :
    (drawSprite x0 y0 rows d).display.dirty = true := by
  obtain ⟨row, rest, rfl⟩ := List.exists_cons_of_ne_nil hrows
  have hat := spriteAt_drawCol_drawRow (x0 := x0) (y0 := y0) hlen (r := 0) rfl (b := 0) (by decide)
  have hpx : spriteAt x0 y0 (row :: rest) (drawCol x0 0) (drawRow y0 0) ≠ none := by rw [hat]; exact Option.some_ne_none _
  exact ((startsBy_drawSprite hlen d _).mpr (.inr ⟨_, _, hpx, le_rfl⟩)).1

/-- Settles O39: each end of the range is told by the words it reaches, which are those of the box and of the range before. -/
theorem drawDirtiesTheBox : Obligations.DrawDirtiesTheBox := by
  rintro x y n s _ rfl hfit
  refine ⟨_, exec_drw_of_le hfit, fun hn => ?_, fun hn => ?_⟩
  · have hrows : s.spriteRows n = [] := by rw [State.spriteRows, hn]; rfl
    rw [hrows]
    rfl
  · have hlen := s.spriteRows_length_le n
    have hrows : s.spriteRows n ≠ [] := by simpa [State.spriteRows] using hn
    have hdirty := dirty_drawSprite (x0 := s.getV x) (y0 := s.getV y) hlen hrows s.display
    have hstart := startsBy_drawSprite (x0 := s.getV x) (y0 := s.getV y) hlen s.display
    have hend := endsFrom_drawSprite (x0 := s.getV x) (y0 := s.getV y) hlen s.display
    refine ⟨hdirty, fun px py hat => ⟨?_, ?_⟩, fun hd => ⟨?_, ?_⟩, ?_, ?_⟩
    · exact ((hstart _).mpr (.inr ⟨px, py, hat, le_rfl⟩)).2
    · exact ((hend _).mpr (.inr ⟨px, py, hat, le_rfl⟩)).2
    · exact ((hstart _).mpr (.inl ⟨hd, le_rfl⟩)).2
    · exact ((hend _).mpr (.inl ⟨hd, le_rfl⟩)).2
    · rcases (hstart _).mp ⟨hdirty, le_rfl⟩ with ⟨hd, hle⟩ | ⟨px, py, hat, hle⟩
      · exact .inl ⟨hd, le_antisymm ((hstart _).mpr (.inl ⟨hd, le_rfl⟩)).2 hle⟩
      · exact .inr ⟨px, py, hat, le_antisymm hle ((hstart _).mpr (.inr ⟨px, py, hat, le_rfl⟩)).2⟩
    · rcases (hend _).mp ⟨hdirty, le_rfl⟩ with ⟨hd, hle⟩ | ⟨px, py, hat, hle⟩
      · exact .inl ⟨hd, le_antisymm hle ((hend _).mpr (.inl ⟨hd, le_rfl⟩)).2⟩
      · exact .inr ⟨px, py, hat, le_antisymm ((hend _).mpr (.inr ⟨px, py, hat, le_rfl⟩)).2 hle⟩

/-- Settles O40: both draws XOR the same picture, and a picture with a source bit 1 that met no lit pixel has lit one. -/
theorem drawingTwiceRestoresDisplay : Obligations.DrawingTwiceRestoresDisplay := by
  intro x y n s t u hx hy hfit hst htu
  have hlen := s.spriteRows_length_le n
  rw [exec_drw_of_le hfit] at hst
  cases hst
  rw [exec_drw_withDrawing hx hy hfit] at htu
  cases htu
  refine ⟨fun px py => ?_, ?_, fun hzero => ?_⟩
  · calc (drawSprite (s.getV x) (s.getV y) (s.spriteRows n) _).display.pix px py
        = ((s.display.pix px py ^^ _) ^^ _) := by rw [pix_drawSprite hlen, pix_drawSprite hlen]
      _ = s.display.pix px py := by rw [Bool.xor_assoc, Bool.xor_self, Bool.xor_false]
  · rintro ⟨r, hr, hbyte⟩ hnohit
    obtain ⟨px, py, hat⟩ := (exists_spriteAt_true_iff (x0 := s.getV x) (y0 := s.getV y) hlen).mpr
      ⟨_, State.mem_spriteRows.mpr ⟨r, hr, rfl⟩, hbyte⟩
    have hdark : ¬ s.display.pix px py = true := fun hlit =>
      (State.withDrawing_vF_eq_zero_iff hlen s s.display).mp hnohit ⟨px, py, hat, hlit⟩
    refine (State.withDrawing_vF_eq_one_iff hlen _ _).mpr ⟨px, py, hat, ?_⟩
    rw [pix_drawSprite hlen, hat, Bool.eq_false_of_not_eq_true hdark]
    rfl
  · refine (State.withDrawing_vF_eq_zero_iff hlen _ _).mpr fun ⟨px, py, hat, _⟩ => ?_
    obtain ⟨row, hmem, hrow⟩ := (exists_spriteAt_true_iff hlen).mp ⟨px, py, hat⟩
    obtain ⟨r, hr, rfl⟩ := State.mem_spriteRows.mp hmem
    exact hrow (hzero r hr)

/-- Settles O38: the range check fails before any effect, with the lowest address past 0xFFF. -/
theorem drawPastMemoryEndFaults : Obligations.DrawPastMemoryEndFaults := by
  intro x y n s hn h
  have hmax : max s.i.toNat 0x1000 = if s.i.toNat > 0xFFF then s.i.toNat else 0x1000 := by
    split <;> omega
  rw [exec_drw_of_gt hn h, hmax]
  rfl

end Sys2Proof.Machine
end

section
/-! CLS and Pull (spec/45_display.md R124, R126). -/

namespace Sys2Proof.Machine

/-- Settles O36: CLS ends by clearing the display and advancing. -/
theorem clearDarkensAndDirtiesAll : Obligations.ClearDarkensAndDirtiesAll := fun _ =>
  ⟨decodeWord_encodeWord .cls, _, rfl, Display.pix_clear_false, ⟨rfl, rfl, rfl⟩, rfl, fun _ _ => rfl, rfl, fun _ => rfl,
    ⟨rfl, rfl⟩, ⟨rfl, rfl⟩, rfl, rfl, rfl⟩

/-- The words Pull answers with a range pending (R124). -/
def Display.pendingWords (d : Display) : List DispWord := (d.words.toList.drop d.dmin.val).take (d.dmax.val + 1 - d.dmin.val)

theorem Display.pull_of_dirty {d : Display} (h : d.dirty = true) :
    d.pull = (some (d.dmin.val * 4, d.pendingWords), { d with dirty := false }) := if_pos h

theorem Display.pull_of_clean {d : Display} (h : d.dirty = false) : d.pull = (none, d) := by
  rw [Display.pull, h]
  rfl

theorem Display.pull_clean (d : Display) : d.pull.2.dirty = false := by
  cases h : d.dirty with
  | false => rw [Display.pull_of_clean h, h]
  | true => rw [Display.pull_of_dirty h]

theorem Display.pendingWords_length {d : Display} (h : d.dmin ≤ d.dmax) :
    d.pendingWords.length = d.dmax.val - d.dmin.val + 1 := by
  have hle : d.dmin.val ≤ d.dmax.val := h
  rw [Display.pendingWords, List.length_take, List.length_drop, Vector.length_toList]
  omega

theorem Display.pendingWords_getElem? {d : Display} {k : Fin 64} (hmin : d.dmin ≤ k) (hmax : k ≤ d.dmax) :
    d.pendingWords[k.val - d.dmin.val]? = some d.words[k] := by
  have hmin' : d.dmin.val ≤ k.val := hmin
  have hmax' : k.val ≤ d.dmax.val := hmax
  rw [Display.pendingWords, List.getElem?_take_of_lt (by omega), List.getElem?_drop, Nat.add_sub_cancel' hmin']
  simp

/-- Settles O41: the answer is the slice of words between the two ends. -/
theorem pullDrainsDirtyRange : Obligations.PullDrainsDirtyRange := by
  intro s
  refine ⟨fun h => ?_, fun h hle => ⟨s.display.pendingWords, ?_, Display.pendingWords_length hle, fun _ =>
    Display.pendingWords_getElem?⟩, ?_⟩
  · rw [hostPull, Display.pull_of_clean h]
  · rw [hostPull, Display.pull_of_dirty h]
  · exact congrArg Prod.fst (Display.pull_of_clean s.display.pull_clean)

end Sys2Proof.Machine
end

section
/-! The statements about the keypad (spec/46_keypad.md R140 to R143): two skips on the key that Vx names, and the key-wait. -/

namespace Sys2Proof.Machine

/-! ## SKP and SKNP (R141, R142) -/

/-- A register that names the key `k` tests that key of the snapshot. -/
theorem State.keyTest_of_eq {s : State} {x : Reg} {k : Fin 16} (h : (s.getV x).toNat = k.val) :
    s.keyTest x = .ok s.input.key[k] := by
  rw [State.keyTest_of_lt (h ▸ k.isLt)]
  simp only [h, Fin.getElem_fin]

theorem exec_skp_of_key {s : State} {x : Reg} {k : Fin 16} (h : (s.getV x).toNat = k.val) :
    exec (.skp x) s = .next (s.skipIf s.input.key[k]) := by
  rw [exec, execSkp, State.keyTest_of_eq h]

theorem exec_sknp_of_key {s : State} {x : Reg} {k : Fin 16} (h : (s.getV x).toNat = k.val) :
    exec (.sknp x) s = .next (s.skipIf (!s.input.key[k])) := by
  rw [exec, execSknp, State.keyTest_of_eq h]

/-- SKP with Vx above 15 is the fault entry (R175). -/
theorem exec_skp_out_of_range {s : State} {x : Reg} (h : 15 < (s.getV x).toNat) :
    exec (.skp x) s = .next (s.raise (.keyIndexFault (s.getV x) s.pc)) := by
  rw [exec, execSkp, State.keyTest_out_of_range h]

/-- SKNP with Vx above 15 is the fault entry (R175). -/
theorem exec_sknp_out_of_range {s : State} {x : Reg} (h : 15 < (s.getV x).toNat) :
    exec (.sknp x) s = .next (s.raise (.keyIndexFault (s.getV x) s.pc)) := by
  rw [exec, execSknp, State.keyTest_out_of_range h]

/-- Settles O42: the key test answers the key that Vx names, or the fault, and the skip is on its answer. -/
theorem skipIfKeyPressed : Obligations.SkipIfKeyPressed := fun x _ =>
  ⟨decodeWord_encodeWord (.skp x), fun _ h => exec_skips_if (exec_skp_of_key h) Iff.rfl, exec_skp_out_of_range⟩

/-- Settles O43: the same key test, the skip being on the opposite of its answer. -/
theorem skipIfKeyNotPressed : Obligations.SkipIfKeyNotPressed := fun x _ =>
  ⟨decodeWord_encodeWord (.sknp x),
    fun _ h => exec_skips_unless (exec_sknp_of_key h) (by rw [Bool.not_eq_true', Bool.not_eq_true]), exec_sknp_out_of_range⟩

/-! ## The key-wait (R143) -/

/-- With a key pressed the key-wait writes the least one's number to V[x] and advances. -/
theorem exec_ldVxK_of_lowest {s : State} {k : Fin 16} (x : Reg) (h : lowestKey s.input.key = some k) :
    exec (.ldVxK x) s = .next ((s.setV x (BitVec.ofNat 8 k.val)).finish .advance) := by
  rw [exec, execLdVxK, State.keyWait, h]

/-- With no key pressed the key-wait stays, and staying changes nothing. -/
theorem exec_ldVxK_of_none {s : State} (x : Reg) (h : ∀ j : Fin 16, s.input.key[j] = false) :
    exec (.ldVxK x) s = .next s := by
  rw [exec, execLdVxK, State.keyWait, (lowestKey_eq_none _).mpr h, State.finish_stay]

/-- A key's number fits a byte. -/
theorem keyByte_toNat (k : Fin 16) : (BitVec.ofNat 8 k.val).toNat = k.val :=
  Nat.mod_eq_of_lt (k.isLt.trans (by decide))

/-- Settles O44: the scan finds the least pressed key, or none. -/
theorem keyWaitLatchesLowestKey : Obligations.KeyWaitLatchesLowestKey := by
  intro x s
  refine ⟨decodeWord_encodeWord (.ldVxK x), fun k hk hless => ?_, exec_ldVxK_of_none x⟩
  refine ⟨_, exec_ldVxK_of_lowest x ((lowestKey_eq_some _ k).mpr ⟨hk, hless⟩), ?_, s.setV_advance_frame x _⟩
  rw [State.finish_getV, State.getV_setV_self, keyByte_toNat]

/-- Settles O45: Execute answers the same state, so all the step does is the tick and the use of its inputs. -/
theorem waitingStepTicksTimers : Obligations.WaitingStepTicksTimers := by
  intro x s hrun hpc hword hnone
  have hfetch : s.fetchInstr = .ok (.ldVxK x) :=
    State.fetchInstr_of_decodeWord hpc ((congrArg decodeWord hword).trans (decodeWord_encodeWord (.ldVxK x)))
  have hstep : step s = .next s.tick.consumeInput := by
    rw [step_of_fetchInstr_ok hrun hfetch (exec_ldVxK_of_none x hnone), State.afterExec_running hrun]
  exact ⟨_, hstep, rfl, rfl, tickTimer_toNat s.dt, tickTimer_toNat s.st, hrun⟩

end Sys2Proof.Machine
end

section
/-! The index register and the timers (spec/47_timer_index_transfer.md R150 to R155): one register besides PC written, and the
timers' order against the tick of the same step (R75). -/

namespace Sys2Proof.Machine

/-! ## The index register (R150, R154, R155) -/

/-- What a change of PC and I leaves as it was. -/
theorem frame_of_pc_index {s t : State} {p a : Word} (h : t = { s with pc := p, i := a }) :
    SameV s t [] ∧ SameMem s t ∧ SameStack s t ∧ SameTimers s t ∧ t.display = s.display ∧ SameLatch s t := by
  subst h
  exact ⟨fun _ _ => rfl, fun _ => rfl, ⟨rfl, rfl⟩, ⟨rfl, rfl⟩, rfl, rfl, rfl, rfl⟩

/-- The sum of I and a byte wraps around at 16 bits (R154). -/
theorem add_zextByte_toNat (a : Word) (b : Byte) : (a + zextByte b).toNat = (a.toNat + b.toNat) % 65536 := by
  rw [BitVec.toNat_add, zextByte_toNat]

/-- Settles O46: both instructions end by writing I, the one the widened address, the other the 16-bit sum. -/
theorem indexRegisterIsWritten : Obligations.IndexRegisterIsWritten := fun addr x s =>
  ⟨⟨decodeWord_encodeWord (.ldI addr), decodeWord_encodeWord (.addI x)⟩,
    ⟨_, rfl, zextAddr_toNat addr, rfl, frame_of_pc_index rfl⟩,
    ⟨_, rfl, add_zextByte_toNat s.i _, rfl, frame_of_pc_index rfl⟩⟩

/-- Settles O47: the font address is exact at 16 bits for every byte. -/
theorem fontPointerIsUnmasked : Obligations.FontPointerIsUnmasked := fun x _ =>
  ⟨decodeWord_encodeWord (.ldF x), _, rfl, fontAddr_toNat _, rfl, frame_of_pc_index rfl⟩

/-! ## The timers (R151 to R153, R75) -/

/-- The whole step at a word of the table whose Execute leaves no fault: Execute, then the tick (R70, R75). -/
theorem step_of_word {s t : State} {ins : Instr} (hrun : s.fault = .none) (hpc : s.pc.toNat ≤ 0xFFE)
    (hword : s.mem.read s.pc.toNat ++ s.mem.read (s.pc.toNat + 1) = encodeWord ins) (ht : exec ins s = .next t)
    (hfault : t.fault = .none) : step s = .next t.tick.consumeInput := by
  have hfetch : s.fetchInstr = .ok ins :=
    State.fetchInstr_of_decodeWord hpc ((congrArg decodeWord hword).trans (decodeWord_encodeWord ins))
  rw [step_of_fetchInstr_ok hrun hfetch ht, State.afterExec_running hfault]

/-- Settles O48: Execute copies DT into V[x], and the tick that follows writes no V register. -/
theorem delayTimerIsReadBeforeTick : Obligations.DelayTimerIsReadBeforeTick := fun x s =>
  ⟨decodeWord_encodeWord (.ldVxDt x), ⟨_, rfl, s.getV_setV_self x s.dt, s.setV_advance_frame x s.dt⟩,
    fun hrun hpc hword => ⟨_, step_of_word (ins := .ldVxDt x) hrun hpc hword rfl hrun, s.getV_setV_self x s.dt,
      tickTimer_toNat s.dt⟩⟩

/-- What a change of PC and the timers leaves as it was. -/
theorem frame_of_pc_timers {s t : State} {p : Word} {d b : Byte} (h : t = { s with pc := p, dt := d, st := b }) :
    SameV s t [] ∧ t.i = s.i ∧ SameMem s t ∧ SameStack s t ∧ t.display = s.display ∧ SameLatch s t := by
  subst h
  exact ⟨fun _ _ => rfl, rfl, fun _ => rfl, ⟨rfl, rfl⟩, rfl, rfl, rfl, rfl⟩

/-- The beep is on exactly while ST is positive (R183). -/
theorem State.beep_iff (s : State) : s.beep = true ↔ 0 < s.st.toNat := by
  rw [State.beep, decide_eq_true_iff, Nat.pos_iff_ne_zero, ne_eq, ne_eq, ← BitVec.toNat_inj]
  rfl

/-- A sound timer just loaded with `b` beeps after the tick exactly from `b = 2` on (R75, R183). -/
theorem beep_after_tick {t : State} {b : Byte} (h : t.st = tickTimer b) : t.beep = true ↔ 2 ≤ b.toNat := by
  rw [State.beep_iff, h, tickTimer_toNat]
  omega

/-- Settles O49: Execute writes the one timer, and the tick counts down what it wrote. -/
theorem timersAreLoadedThenTicked : Obligations.TimersAreLoadedThenTicked := fun x _ =>
  ⟨⟨decodeWord_encodeWord (.ldDtVx x), decodeWord_encodeWord (.ldStVx x)⟩,
    ⟨_, rfl, rfl, rfl, rfl, frame_of_pc_timers rfl⟩,
    ⟨_, rfl, rfl, rfl, rfl, frame_of_pc_timers rfl⟩,
    fun hrun hpc hword => ⟨_, step_of_word (ins := .ldDtVx x) hrun hpc hword rfl hrun, tickTimer_toNat _⟩,
    fun hrun hpc hword =>
      ⟨_, step_of_word (ins := .ldStVx x) hrun hpc hword rfl hrun, tickTimer_toNat _, beep_after_tick rfl⟩⟩

end Sys2Proof.Machine
end

section
/-! The transfers between registers and memory (spec/47_timer_index_transfer.md R156 to R158): one block of bytes at I stored or
loaded whole, or the fault entry with nothing accessed (R177). -/

namespace Sys2Proof.Machine

/-- The lowest address past 0xFFF of a block that starts at `a` and reaches past it (R37). -/
theorem max_eq_lowestOutOfRange (a : Nat) : max a 0x1000 = if a > 0xFFF then a else 0x1000 := by
  split <;> omega

/-! ## Block stores (R156, R157) -/

/-- The state after a block store of `bs` at I: the bytes written and PC advanced, or the fault entry. -/
def State.storeBlock (s : State) (bs : List Byte) : State :=
  match s.writeBlock s.iAddr bs with
  | .error f => s.raise f
  | .ok t => t.finish .advance

theorem exec_ldB (x : Reg) (s : State) : exec (.ldB x) s = .next (s.storeBlock (bcdDigits (s.getV x))) := by
  rw [exec, execLdB, State.storeBlock]
  cases s.writeBlock s.iAddr (bcdDigits (s.getV x)) <;> rfl

theorem exec_ldMemVx (x : Reg) (s : State) : exec (.ldMemVx x) s = .next (s.storeBlock (s.regBlock x)) := by
  rw [exec, execLdMemVx, State.storeBlock]
  cases s.writeBlock s.iAddr (s.regBlock x) <;> rfl

theorem State.storeBlock_of_gt {s : State} {bs : List Byte} (hne : bs.length ≠ 0) (h : 0x1000 < s.i.toNat + bs.length) :
    s.storeBlock bs =
      { s with fault := .addressFault (if s.i.toNat > 0xFFF then s.i.toNat else 0x1000) .write s.pc } := by
  rw [State.storeBlock, State.writeBlock_eq, State.iAddr, if_neg (by omega), max_eq_lowestOutOfRange]
  rfl

section
variable {s : State} {bs : List Byte} (hfit : s.i.toNat + bs.length ≤ 0x1000)
include hfit

theorem State.storeBlock_of_le :
    s.storeBlock bs = State.finish { s with mem := s.mem.writeBytes s.i.toNat bs } .advance := by
  rw [State.storeBlock, State.writeBlock_eq, State.iAddr, if_pos (.inr hfit)]

/-- A byte of the stored block, read back. -/
theorem State.storeBlock_read (hwf : s.mem.wf = true) {k : Nat} (hk : k < bs.length) :
    (s.storeBlock bs).mem.read (s.i.toNat + k) = bs[k] := by
  have hin : s.i.toNat ≤ s.i.toNat + k ∧ s.i.toNat + k < s.i.toNat + bs.length := by omega
  rw [State.storeBlock_of_le hfit, State.finish_mem, Memory.read_writeBytes _ hwf hfit, dif_pos hin]
  simp only [Nat.add_sub_cancel_left]

/-- What a block store of `n` bytes leaves as it was. -/
theorem State.storeBlock_frame (hwf : s.mem.wf = true) {n : Nat} (hn : bs.length = n) :
    SameMemOutside s (s.storeBlock bs) s.i.toNat n ∧ (s.storeBlock bs).pc = s.pc + 2#16 ∧ SameV s (s.storeBlock bs) [] ∧
      (s.storeBlock bs).i = s.i ∧ SameStack s (s.storeBlock bs) ∧ SameTimers s (s.storeBlock bs) ∧
      (s.storeBlock bs).display = s.display ∧ SameLatch s (s.storeBlock bs) := by
  rw [State.storeBlock_of_le hfit]
  refine ⟨fun a ha => ?_, rfl, fun _ _ => rfl, rfl, ⟨rfl, rfl⟩, ⟨rfl, rfl⟩, rfl, rfl, rfl, rfl⟩
  rw [State.finish_mem, Memory.read_writeBytes _ hwf hfit, dif_neg (by omega)]

end

/-- The three digits as numbers (R156). -/
theorem bcdDigits_toNat (v : Byte) :
    (bcdDigits v).map BitVec.toNat = [v.toNat / 100, v.toNat / 10 % 10, v.toNat % 10] := by
  simp only [bcdDigits, List.map_cons, List.map_nil, BitVec.toNat_udiv, BitVec.toNat_umod, BitVec.reduceToNat]

/-- A stored digit, read back as a number. -/
theorem State.storeBlock_read_digit {s : State} {v : Byte} (hwf : s.mem.wf = true) (hfit : s.i.toNat + 2 ≤ 0xFFF) {k d : Nat}
    (h : [v.toNat / 100, v.toNat / 10 % 10, v.toNat % 10][k]? = some d) :
    ((s.storeBlock (bcdDigits v)).mem.read (s.i.toNat + k)).toNat = d := by
  rw [← bcdDigits_toNat, List.getElem?_map, Option.map_eq_some_iff] at h
  obtain ⟨b, hb, rfl⟩ := h
  obtain ⟨hk, rfl⟩ := List.getElem?_eq_some_iff.mp hb
  rw [State.storeBlock_read (by rw [bcdDigits_length]; omega) hwf hk]

/-- Settles O50: a block store of the three digits. -/
theorem bcdStoresThreeDigits : Obligations.BcdStoresThreeDigits := by
  intro x s hwf
  refine ⟨decodeWord_encodeWord (.ldB x), fun hfit => ?_, fun hgt => ?_⟩
  · exact ⟨_, exec_ldB x s, State.storeBlock_read_digit (k := 0) hwf hfit rfl, State.storeBlock_read_digit hwf hfit rfl,
      State.storeBlock_read_digit hwf hfit rfl, State.storeBlock_frame (by rw [bcdDigits_length]; omega) hwf rfl⟩
  · rw [exec_ldB, State.storeBlock_of_gt (by rw [bcdDigits_length]; omega) (by rw [bcdDigits_length]; omega)]

/-- The register block holds V[r] at place r. -/
theorem State.regBlock_getElem_toNat (s : State) (x r : Reg) (h : r.toNat < (s.regBlock x).length) :
    (s.regBlock x)[r.toNat] = s.getV r := by
  rw [State.regBlock_getElem, BitVec.ofNat_toNat, BitVec.setWidth_eq]

/-- Settles O51: a block store of V0 to Vx. -/
theorem blockStoreWritesRegisters : Obligations.BlockStoreWritesRegisters := by
  intro x s hwf
  have hlen : (s.regBlock x).length = x.toNat + 1 := s.regBlock_length x
  refine ⟨decodeWord_encodeWord (.ldMemVx x), fun hle => ?_, fun hgt => ?_⟩
  · have hfit : s.i.toNat + (s.regBlock x).length ≤ 0x1000 := by omega
    refine ⟨_, exec_ldMemVx x s, fun r hr => ?_, State.storeBlock_frame hfit hwf hlen⟩
    rw [State.storeBlock_read hfit hwf (by omega), State.regBlock_getElem_toNat]
  · rw [exec_ldMemVx, State.storeBlock_of_gt (by omega) (by omega)]

/-! ## Block loads (R158) -/

/-- The `n` bytes of memory from I on. -/
def State.memBlock (s : State) (n : Nat) : List Byte := (List.range n).map fun k => s.mem.read (s.i.toNat + k)

@[simp] theorem State.memBlock_length (s : State) (n : Nat) : (s.memBlock n).length = n := by
  rw [State.memBlock, List.length_map, List.length_range]

theorem State.memBlock_getElem (s : State) (n k : Nat) (h : k < (s.memBlock n).length) :
    (s.memBlock n)[k] = s.mem.read (s.i.toNat + k) := by
  simp only [State.memBlock, List.getElem_map, List.getElem_range]

theorem exec_ldVxMem_of_le {x : Reg} {s : State} (h : s.i.toNat + x.toNat ≤ 0xFFF) :
    exec (.ldVxMem x) s = .next ((s.loadRegs 0 (s.memBlock (x.toNat + 1))).finish .advance) := by
  rw [exec, execLdVxMem, State.readBlock_eq, State.iAddr, if_pos (by omega)]
  rfl

theorem exec_ldVxMem_of_gt {x : Reg} {s : State} (h : 0xFFF < s.i.toNat + x.toNat) :
    exec (.ldVxMem x) s =
      .next { s with fault := .addressFault (if s.i.toNat > 0xFFF then s.i.toNat else 0x1000) .read s.pc } := by
  rw [exec, execLdVxMem, State.readBlock_eq, State.iAddr, if_neg (by omega), max_eq_lowestOutOfRange]
  rfl

/-- A register after the load of V0 to Vx from the block at I. -/
theorem State.getV_loadRegs_memBlock (s : State) (x r : Reg) :
    (s.loadRegs 0 (s.memBlock (x.toNat + 1))).getV r =
      if r.toNat ≤ x.toNat then s.mem.read (s.i.toNat + r.toNat) else s.getV r := by
  have hx : x.toNat < 16 := x.isLt
  have hlen : (s.memBlock (x.toNat + 1)).length = x.toNat + 1 := s.memBlock_length _
  rw [State.getV_loadRegs _ _ _ _ (by omega)]
  by_cases hr : r.toNat ≤ x.toNat
  · rw [if_pos hr, dif_pos (by omega), State.memBlock_getElem, Nat.sub_zero]
  · rw [if_neg hr, dif_neg (by omega)]

theorem State.loadRegs_sameBeyondV (s : State) (k : Nat) (bs : List Byte) : SameBeyondV s (s.loadRegs k bs) := by
  obtain ⟨v, hv⟩ := State.loadRegs_eq bs s k
  rw [hv]
  exact ⟨rfl, fun _ => rfl, ⟨rfl, rfl⟩, ⟨rfl, rfl⟩, rfl, rfl, rfl, rfl⟩

theorem State.loadRegs_pc (s : State) (k : Nat) (bs : List Byte) : (s.loadRegs k bs).pc = s.pc := by
  obtain ⟨v, hv⟩ := State.loadRegs_eq bs s k
  rw [hv]

/-- Settles O52: every byte is read before the first register is written, so the registers get the block as it was. -/
theorem blockLoadReadsRegisters : Obligations.BlockLoadReadsRegisters := fun x s =>
  ⟨decodeWord_encodeWord (.ldVxMem x),
    fun h => ⟨_, exec_ldVxMem_of_le h, s.getV_loadRegs_memBlock x, congrArg (· + 2#16) (s.loadRegs_pc 0 _),
      s.loadRegs_sameBeyondV 0 _⟩,
    exec_ldVxMem_of_gt⟩

/-- Settles O53: the load reads each register's byte where the store put it, since the store keeps I. -/
theorem blockLoadUndoesBlockStore : Obligations.BlockLoadUndoesBlockStore := by
  intro x s t u hwf hfit hstore hi hmem
  obtain ⟨-, hstores, -⟩ := blockStoreWritesRegisters x s hwf
  obtain ⟨t', ht', hread, -, -, -, hikept, -⟩ := hstores hfit
  cases hstore.symm.trans ht'
  have hiu : u.i = s.i := hi.trans hikept
  obtain ⟨-, hloads, -⟩ := blockLoadReadsRegisters x u
  obtain ⟨w, hw, hgetV, -⟩ := hloads (by rw [hiu]; exact hfit)
  refine ⟨w, hw, fun r hr => ?_⟩
  rw [hgetV, if_pos hr, hiu, hmem, hread r hr]

end Sys2Proof.Machine
end

section
/-! The faults of the execute stage (spec/60_exceptions.md R170, R178): each instruction that can fault keeps the latch or raises the
one fault of the operation it uses. -/

namespace Sys2Proof.Machine

/-! ## The latch after the shared operations -/

/-- A block store keeps the latch or raises a write fault above 0xFFF (R36). -/
theorem State.storeBlock_fault (s : State) (bs : List Byte) :
    (s.storeBlock bs).fault = s.fault ∨ ∃ a, 0xFFF < a ∧ (s.storeBlock bs).fault = .addressFault a .write s.pc := by
  rw [State.storeBlock, State.writeBlock_eq]
  by_cases hfit : bs.length = 0 ∨ s.iAddr + bs.length ≤ 0x1000
  · rw [if_pos hfit]
    exact .inl rfl
  · rw [if_neg hfit]
    exact .inr ⟨_, le_max_right s.iAddr 0x1000, rfl⟩

/-- The key-wait raises no fault (R143). -/
theorem State.keyWait_fault (s : State) (x : Reg) : (s.keyWait x).fault = s.fault := by
  unfold State.keyWait
  split <;> rfl

/-! ## The latch after each instruction that can fault -/

section
variable {s t : State}

/-- The latch of the next state is that of the state a law says Execute answers. -/
theorem fault_eq_of_exec {ins : Instr} {u : State} {f : FaultLatch} (h : exec ins s = .next t) (hu : exec ins s = .next u)
    (hf : u.fault = f) : t.fault = f := by
  cases h.symm.trans hu
  exact hf

theorem exec_call_fault {addr : Addr12} (h : exec (.call addr) s = .next t) :
    t.fault = s.fault ∨ t.fault = .stackOverflow s.pc := by
  by_cases hsp : s.sp.val < 16
  · exact .inl (fault_eq_of_exec h (exec_call_of_lt addr hsp) rfl)
  · exact .inr (fault_eq_of_exec h (exec_call_full addr (by omega)) rfl)

theorem exec_ret_fault (h : exec .ret s = .next t) : t.fault = s.fault ∨ t.fault = .stackUnderflow s.pc := by
  by_cases hsp : s.sp.val = 0
  · exact .inr (fault_eq_of_exec h (exec_ret_empty hsp) rfl)
  · have hsucc : s.sp.val = (s.sp.val - 1) + 1 := by omega
    exact .inl (fault_eq_of_exec h (exec_ret_of_succ (k := ⟨s.sp.val - 1, by omega⟩) hsucc) rfl)

theorem exec_skp_fault {x : Reg} (h : exec (.skp x) s = .next t) :
    t.fault = s.fault ∨ t.fault = .keyIndexFault (s.getV x) s.pc := by
  by_cases hx : (s.getV x).toNat < 16
  · exact .inl (fault_eq_of_exec h (exec_skp_of_key (k := ⟨_, hx⟩) rfl) rfl)
  · exact .inr (fault_eq_of_exec h (exec_skp_out_of_range (by omega)) rfl)

theorem exec_sknp_fault {x : Reg} (h : exec (.sknp x) s = .next t) :
    t.fault = s.fault ∨ t.fault = .keyIndexFault (s.getV x) s.pc := by
  by_cases hx : (s.getV x).toNat < 16
  · exact .inl (fault_eq_of_exec h (exec_sknp_of_key (k := ⟨_, hx⟩) rfl) rfl)
  · exact .inr (fault_eq_of_exec h (exec_sknp_out_of_range (by omega)) rfl)

theorem exec_drw_fault {x y : Reg} {n : Nibble} (h : exec (.drw x y n) s = .next t) :
    t.fault = s.fault ∨ ∃ a, 0xFFF < a ∧ t.fault = .addressFault a .read s.pc := by
  by_cases hfit : n.toNat = 0 ∨ s.i.toNat + n.toNat ≤ 0x1000
  · exact .inl (fault_eq_of_exec h (exec_drw_of_le hfit) rfl)
  · exact .inr ⟨_, le_max_right s.i.toNat 0x1000, fault_eq_of_exec h (exec_drw_of_gt (by omega) (by omega)) rfl⟩

theorem exec_ldVxMem_fault {x : Reg} (h : exec (.ldVxMem x) s = .next t) :
    t.fault = s.fault ∨ ∃ a, 0xFFF < a ∧ t.fault = .addressFault a .read s.pc := by
  by_cases hfit : s.i.toNat + x.toNat ≤ 0xFFF
  · obtain ⟨-, -, -, -, -, hkept, -⟩ := s.loadRegs_sameBeyondV 0 (s.memBlock (x.toNat + 1))
    exact .inl (fault_eq_of_exec h (exec_ldVxMem_of_le hfit) hkept)
  · refine .inr ⟨_, ?_, fault_eq_of_exec h (exec_ldVxMem_of_gt (by omega)) rfl⟩
    rw [← max_eq_lowestOutOfRange]
    exact le_max_right s.i.toNat 0x1000

theorem exec_ldB_fault {x : Reg} (h : exec (.ldB x) s = .next t) :
    t.fault = s.fault ∨ ∃ a, 0xFFF < a ∧ t.fault = .addressFault a .write s.pc := by
  rw [fault_eq_of_exec h (exec_ldB x s) rfl]
  exact s.storeBlock_fault _

theorem exec_ldMemVx_fault {x : Reg} (h : exec (.ldMemVx x) s = .next t) :
    t.fault = s.fault ∨ ∃ a, 0xFFF < a ∧ t.fault = .addressFault a .write s.pc := by
  rw [fault_eq_of_exec h (exec_ldMemVx x s) rfl]
  exact s.storeBlock_fault _

end

/-- Settles O15: an instruction that can fault keeps the latch or raises its one fault; the others keep it. -/
theorem eachInstructionHasOneFaultKind : Obligations.EachInstructionHasOneFaultKind := by
  intro ins s t hrun h hfault
  have hchanged : t.fault ≠ s.fault := by rwa [hrun]
  cases ins
  case call addr => exact (exec_call_fault h).resolve_left hchanged
  case ret => exact (exec_ret_fault h).resolve_left hchanged
  case skp x => exact (exec_skp_fault h).resolve_left hchanged
  case sknp x => exact (exec_sknp_fault h).resolve_left hchanged
  case drw x y n => exact (exec_drw_fault h).resolve_left hchanged
  case ldVxMem x => exact (exec_ldVxMem_fault h).resolve_left hchanged
  case ldB x => exact (exec_ldB_fault h).resolve_left hchanged
  case ldMemVx x => exact (exec_ldMemVx_fault h).resolve_left hchanged
  case ldVxK x =>
    cases h
    exact hchanged (s.keyWait_fault x)
  all_goals
    cases h
    exact hchanged rfl

end Sys2Proof.Machine
end

section
/-! Reset of a ROM image (spec/70_reset_and_hazards.md R190 to R194): the reset state with the image in memory, or RomSizeFault
(spec/60_exceptions.md R186). -/

namespace Sys2Proof.Machine

/-! ## An image that does not fit (R186) -/

theorem hostReset_of_gt {rom : List Byte} (s : State) (h : romMax < rom.length) :
    hostReset rom s = s.raise (.romSizeFault rom.length) := if_pos h

/-- Settles O57: Reset is the fault entry, and a halted machine's step only uses up its inputs. -/
theorem oversizedRomHalts : Obligations.OversizedRomHalts := by
  intro rom s hlen
  rw [hostReset_of_gt s hlen]
  exact ⟨rfl, rfl, step_of_halted nofun⟩

/-! ## An image that fits (R190, R193, R194) -/

theorem hostReset_of_le {rom : List Byte} (s : State) (h : rom.length ≤ romMax) :
    hostReset rom s = { State.resetWith rom with inputs := s.inputs, stepNo := s.stepNo } := if_neg (Nat.not_lt.mpr h)

theorem State.reset_getV (r : Reg) : State.reset.getV r = 0#8 := Vector.getElem_replicate _

theorem Display.pix_reset (x : Fin 64) (y : Fin 32) : Display.reset.pix x y = false := by
  simp [Display.pix, Display.reset]

section
variable {rom : List Byte} (hlen : rom.length ≤ romMax)
include hlen

/-- Memory after Reset: the image from 0x200 on, elsewhere what an empty image leaves (R190). -/
theorem State.resetWith_read (a : Nat) : (State.resetWith rom).mem.read a =
    if h : romBase ≤ a ∧ a < romBase + rom.length then rom[a - romBase] else unlistedByte a :=
  Memory.read_writeBytes a Memory.wf_reset (Nat.add_le_add_left hlen romBase)

/-- Byte `k` of the image is at 0x200 + k (R193). -/
theorem State.resetWith_read_rom {k : Nat} (hk : k < rom.length) :
    (State.resetWith rom).mem.read (romBase + k) = rom[k] := by
  rw [State.resetWith_read hlen, dif_pos (by omega)]
  simp only [Nat.add_sub_cancel_left]

/-- The image leaves the font's 80 bytes as they were: they end below 0x200 (R194). -/
theorem State.resetWith_read_font {k : Nat} (hk : k < 80) :
    (State.resetWith rom).mem.read (0x050 + k) = fontTable.getD k 0#8 := by
  rw [State.resetWith_read hlen, dif_neg (by unfold romBase; omega), unlistedByte_font]

theorem State.resetWith_inv : (State.resetWith rom).inv = true :=
  (State.inv_iff _).mpr ⟨Memory.wf_writeBytes Memory.wf_reset (Nat.add_le_add_left hlen romBase), Display.rangeOk_reset⟩

end

/-- Settles O56: the fields are those of the reset state; the image's bytes come from the laws of memory. -/
theorem resetGivesInitialState : Obligations.ResetGivesInitialState := by
  intro rom s hlen
  rw [hostReset_of_le s hlen]
  exact ⟨State.reset_getV, rfl, rfl, rfl, rfl, rfl, Display.pix_reset, rfl, rfl, rfl, fun _ => State.resetWith_read_rom hlen,
    fun _ => State.resetWith_read_font hlen, State.resetWith_inv hlen⟩

end Sys2Proof.Machine
end
